-- ==== Sys2Proof/Word.lean ====
section
/-! DEFINITION. Bytes, byte sequences, the six spaces, the three failures and the result of a command
(spec/00_scope.md section 6 and R12, spec/20_memory.md R41). -/

namespace Sys2Proof

/-- A byte: 8 bits (spec/00_scope.md section 6). -/
abbrev Byte := BitVec 8

/-- A byte sequence, byte 0 first (spec/00_scope.md section 6, spec/20_memory.md R48). -/
abbrev Bytes := List Byte

/-- The six address spaces of the host port (spec/20_memory.md R41). -/
inductive Space where
  | reg | key | iv | inp | aux | out
deriving DecidableEq, Repr, Inhabited

/-- The three failure outcomes, closed (spec/00_scope.md R12). They are ordinary results of a command, reported in
STATUS.ERR; they are no faults of the model. -/
inductive Failure where
  | lengthMismatch | invalidInput | invalidPadding
deriving DecidableEq, Repr

/-- What a pure function answers (spec/00_scope.md R11): `ok(v)` or `raise F`. -/
inductive Result where
  | ok (v : Bytes)
  | fail (f : Failure)
deriving DecidableEq, Repr

end Sys2Proof
end

