-- ==== Sys2Proof/Syntax.lean ====
section
/-! DEFINITION. The commands: one constructor per row of spec/opcode_table.json (spec/30_encoding.md R62). A command word
carries no operand (R63), so no constructor has a field. -/

namespace Sys2Proof

/-- The five commands of the opcode map (R62). -/
inductive Instr where
  | pad
  | unpad
  | xor
  | cbcenc
  | cbcdec
deriving DecidableEq, Repr

end Sys2Proof
end

