-- ==== Sys2Proof/Decode.lean ====
section
/-! DEFINITION. Decoding of the command word, total on the 256 words (spec/30_encoding.md R60 to R62), and the encoder from
the same table. -/

namespace Sys2Proof

/-- Why a word is malformed (spec/30_encoding.md R64). Both kinds have the same outcome, `InvalidInput`. -/
inductive Malformed where
  /-- `RSV` (bits 7:3) is not zero. -/
  | reservedBits
  /-- `RSV` is zero and `OP` is 0, 6 or 7. -/
  | reservedOp
deriving DecidableEq, Repr

/-- What decoding answers. -/
inductive Decoded where
  | command (i : Instr)
  | malformed (m : Malformed)
deriving DecidableEq, Repr

/-- Field `RSV`, bits 7:3 of the word (R60). -/
def fieldRSV (w : BitVec 8) : BitVec 5 := w.extractLsb' 3 5

/-- Field `OP`, bits 2:0 of the word (R60). -/
def fieldOP (w : BitVec 8) : BitVec 3 := w.extractLsb' 0 3

/-- The opcode map on `OP` (R62). -/
def decodeOP (op : BitVec 3) : Decoded :=
  match op.toNat with
  | 1 => .command .pad
  | 2 => .command .unpad
  | 3 => .command .xor
  | 4 => .command .cbcenc
  | 5 => .command .cbcdec
  | _ => .malformed .reservedOp

/-- Decoding depends on nothing but the word (R61): `RSV` must be zero, then `OP` selects (R62). -/
def decode (w : BitVec 8) : Decoded :=
  if fieldRSV w = 0#5 then decodeOP (fieldOP w) else .malformed .reservedBits

/-- `OP` of each command (R62). -/
def opOf : Instr → BitVec 3
  | .pad => 0b001#3
  | .unpad => 0b010#3
  | .xor => 0b011#3
  | .cbcenc => 0b100#3
  | .cbcdec => 0b101#3

/-- The word of a command: `0b00000` followed by `OP` (R62). -/
def encode (i : Instr) : BitVec 8 := 0b00000#5 ++ opOf i

/-- The instruction read from the table's `nbits` bits `w`: a command is one 8-bit word (R60), and no instruction has another
length. -/
def decodeTableWord (nbits w : Nat) : Option Instr :=
  if nbits = 8 ∧ w < 256 then
    match decode (BitVec.ofNat 8 w) with
    | .command i => some i
    | .malformed _ => none
  else none

end Sys2Proof
end

