-- ==== Sys2Proof/Machine/Bytes.lean ====
section
/-! DEFINITION. The spec's notation on byte sequences (spec/00_scope.md section 6) and the splitting of a message into blocks
(spec/42_cbc.md R100). -/

namespace Sys2Proof.Machine

/-- `slice(a, i, n)`: the `n` bytes of `a` from index `i`. -/
def slice (a : Bytes) (i n : Nat) : Bytes := (a.drop i).take n

/-- `rep(v, n)`: `n` bytes each equal to `v`. -/
def rep (v : Byte) (n : Nat) : Bytes := List.replicate n v

/-- The byte-wise exclusive-or, lane by lane (spec/41_xor.md R90, R91). -/
def xorBytes (a b : Bytes) : Bytes := List.zipWith (· ^^^ ·) a b

/-- The first `m` whole blocks of `a`: `slice(a, j*B, B)` for `0 <= j < m` (R100). -/
def blocks (B : Nat) (a : Bytes) (m : Nat) : List Bytes := (List.range m).map fun j => slice a (j * B) B

/-- The final chunk of `p`: what is left after the full chunks, of length `len(p) mod B` (R100). -/
def finalChunk (B : Nat) (p : Bytes) : Bytes := slice p (p.length / B * B) (p.length % B)

end Sys2Proof.Machine
end

