-- ==== Sys2Proof/Config.lean ====
section
/-! DEFINITION. What an implementation fixes (spec/00_scope.md R4 to R8) and the free values (spec/70_reset_and_hazards.md
R151, R153). Everything an instance fixes is ONE opaque record, so a theorem about the machine holds for every instance. The record and the
free values take the number of the copy of the model they belong to (spec/60_exceptions.md R144): nothing in Lean relates those of
two copies. -/

namespace Sys2Proof

/-- The construction-time parameters of one instance. Illegal values (93_implementation_defined.md U13) cannot be built:
the block size and the widths are stored less their least value. The two primitives are given byte by byte, so that
`E` and `D` below range over exactly the total functions from (block, key) to block. -/
structure Params where
  /-- `B - 1`: `B` lies in `1..255` (R4). -/
  blockSizeLess1 : Fin 255
  /-- `K - 1`: `K ≥ 1` (R5). -/
  keyLenLess1 : Nat
  /-- `LENW - 1`: `LENW ≥ 1` (R6). -/
  lenWidthLess1 : Nat
  /-- Byte `i` of `E(x, k)` (R7). -/
  encByte : Bytes → Bytes → Nat → Byte
  /-- Byte `i` of `D(x, k)` (R7). -/
  decByte : Bytes → Bytes → Nat → Byte
deriving Inhabited

/-- `B`, the block size in bytes (R4). -/
def Params.B (P : Params) : Nat := P.blockSizeLess1.val + 1

/-- `K`, the key length in bytes (R5). -/
def Params.K (P : Params) : Nat := P.keyLenLess1 + 1

/-- `LENW`, the width in bits of the input-length registers (R6). -/
def Params.LENW (P : Params) : Nat := P.lenWidthLess1 + 1

/-- `NMAX = 2^LENW - 1`, the greatest input length (R6). -/
def Params.NMAX (P : Params) : Nat := 2 ^ P.LENW - 1

/-- `OUTCAP = (NMAX div B + 1) * B`, the capacity of the output buffer (R6). -/
def Params.OUTCAP (P : Params) : Nat := (P.NMAX / P.B + 1) * P.B

/-- `E : Block x Key -> Block` (R7): always `B` bytes. -/
def Params.E (P : Params) (x k : Bytes) : Bytes := (List.range P.B).map (P.encByte x k)

/-- `D : Block x Key -> Block` (R7): always `B` bytes. -/
def Params.D (P : Params) (x k : Bytes) : Bytes := (List.range P.B).map (P.decByte x k)

/-- `PRIM_INV` (R8): the named hypothesis some laws take; no definition of the machine uses it. -/
def Params.PrimInv (P : Params) : Prop :=
  ∀ x k : Bytes, x.length = P.B → k.length = P.K → P.D (P.E x k) k = x

/-- The parameters of copy `c` of the model: OPEN in the spec (D1 to D4) and each instance's own (D2: "fixed per instance"), so
opaque: nothing in Lean can tell their values, or that two copies have the same. Log entries 1 and 18, safe. -/
opaque Config.params (c : Nat) : Params

/-- FREE VALUE: what a byte nothing has written since reset holds when draw number `n` of copy `c` looks at byte `i` of space `sp`
(R151; 93_implementation_defined.md U1, U2). That the bytes of two copies are unrelated is the model's choice: the spec relates
them nowhere. Log entries 3 and 18, safe. -/
opaque Config.unwritten (c n : Nat) (sp : Space) (i : Nat) : Byte

/-- FREE VALUE: how many primitive invocations a command abandoned by RESET had made, at draw number `n` of copy `c` (R153, U5).
Log entries 7 and 18, safe. -/
opaque Config.abandonedAfter (c n : Nat) : Nat

end Sys2Proof
end

