-- ==== Sys2Proof/Machine/Location.lean ====
section
/-! DEFINITION. The plain data of the two interfaces: locations and accesses of the host port (spec/20_memory.md R40, R44,
R45), the inputs the machine takes in order, the values reads return, and the records of the Block Primitive's port
(spec/42_cbc.md R109). -/

namespace Sys2Proof.Machine

/-- A location: a pair (space, index) (R40). -/
structure Loc where
  space : Space
  index : Nat
deriving DecidableEq, Repr

/-- The five registers of space REG (spec/10_state.md R24). -/
abbrev Loc.cmd : Loc := ⟨.reg, 0⟩
abbrev Loc.status : Loc := ⟨.reg, 1⟩
abbrev Loc.inlen : Loc := ⟨.reg, 2⟩
abbrev Loc.auxlen : Loc := ⟨.reg, 3⟩
abbrev Loc.outlen : Loc := ⟨.reg, 4⟩

/-- A port operation of the HOST: `RD(space, index)` (R44) or `WR(space, index, value)` (R45). -/
inductive Access where
  | rd (l : Loc)
  | wr (l : Loc) (v : Nat)
deriving DecidableEq, Repr

/-- One input: a HOST access, a place in the order where the ENGINE takes its turn, or the platform's RESET
(spec/00_scope.md R9, spec/70_reset_and_hazards.md R150). -/
inductive Event where
  | access (a : Access)
  | engine
  | reset
deriving DecidableEq, Repr

/-- What one completed `RD` returned (R44). -/
structure Reply where
  loc : Loc
  value : Nat
deriving DecidableEq, Repr

/-- `ENC` for an evaluation of `E`, `DEC` for one of `D` (R109). -/
inductive Dir where
  | enc | dec
deriving DecidableEq, Repr

/-- One record `(dir, x, k)` of the primitive-invocation trace (R109). -/
structure PrimCall where
  dir : Dir
  block : Bytes
  key : Bytes
deriving DecidableEq, Repr

end Sys2Proof.Machine
end

