-- ==== Sys2Proof/Machine/State.lean ====
section
/-! DEFINITION. The machine's state as plain data, and the state right after reset (spec/10_state.md R20 to R38). The fields
from `events` on are the MODEL's own: the inputs, and what the outside has observed. -/

namespace Sys2Proof.Machine

/-- The stored bytes of one space: (index, byte) pairs, indices strictly rising. An index that is not listed is *unwritten*
(spec/70_reset_and_hazards.md R151). -/
abbrev Memory := List Host.Cell

/-- Where the model stops because the input is no action of the spec. Every one is SAFE: the model stops. -/
inductive Fault where
  /-- The HOST's next access names a pair (space, index) that is no location (spec/20_memory.md R42): raised by `hostAccess`.
  Safe: the spec gives the access no meaning. -/
  | noSuchLocation
  /-- The HOST's next access writes a value wider than its location (spec/20_memory.md R45): raised by `hostAccess`.
  Safe: the spec gives the access no meaning. -/
  | valueTooWide
  /-- STATUS.BUSY = 1 and PEND holds no value: raised by `engineStep`. Safe: spec/10_state.md R37 (a) says no reachable state
  is such. -/
  | busyWithoutCommand
deriving DecidableEq, Repr

/-- Why an instruction has no meaning in the model. -/
inductive Refusal where
  /-- The instruction has no meaning yet: raised by a refused arm of `exec` (there is none). Safe. -/
  | notModelled (mnemonic : String)
deriving DecidableEq, Repr

/-- All the state of one instance. `CMD` has no field: it stores nothing (spec/10_state.md R26). `OUTLEN` is the length of
`out` (R35). -/
structure State where
  /-- `KEY` (R20). -/
  key : Memory
  /-- `IV` (R21). -/
  iv : Memory
  /-- `CHAIN` (R22): a Block or no value. -/
  chain : Option Bytes
  /-- `STATUS` (R25). -/
  status : BitVec 8
  /-- `INLEN` (R27). -/
  inlen : Nat
  /-- `AUXLEN` (R27). -/
  auxlen : Nat
  /-- `PEND` (R31): the command word of the command in progress, or no value. -/
  pend : Option (BitVec 8)
  /-- `IN` (R33). -/
  inp : Memory
  /-- `AUX` (R34). -/
  aux : Memory
  /-- `OUT` and `OUTLEN` (R28, R35): the observable byte sequence, whose length is `OUTLEN`. Log entry 11. -/
  out : Bytes
  /-- MODEL's own: what the outside does next, oldest first. Log entry 6. -/
  events : List Event
  /-- MODEL's own: what `RD`s have returned, oldest first (spec/20_memory.md R44). Log entry 8. -/
  returned : List Reply
  /-- MODEL's own: the invocations of the Block Primitive made so far, oldest first (spec/42_cbc.md R109). Log entry 9. -/
  trace : List PrimCall
  /-- MODEL's own: how many free values have been drawn. Log entry 4. -/
  draws : Nat
  /-- MODEL's own: since reset a command has computed with an unwritten byte (spec/70_reset_and_hazards.md R152).
  Log entry 5. -/
  unspecified : Bool
  /-- MODEL's own: which of the independent copies of the model this is (spec/60_exceptions.md R144). It selects the parameters and
  the free values of Config and nothing else: no port location shows it and no step changes it. Log entries 18 and 21. -/
  copy : Nat
deriving DecidableEq, Repr

/-- The state after reset (R38): idle, no result, zero lengths, every byte of KEY, IV, IN and AUX unwritten, PEND and CHAIN
without value. The model's own fields are empty, and the copy is number 0 (log entries 4, 5, 6, 8, 9, 21). -/
def State.reset : State where
  key := []
  iv := []
  chain := none
  status := 0x00#8
  inlen := 0
  auxlen := 0
  pend := none
  inp := []
  aux := []
  out := []
  events := []
  returned := []
  trace := []
  draws := 0
  unspecified := false
  copy := 0

end Sys2Proof.Machine
end

