-- ==== Sys2Proof/Machine/Flags.lean ====
section
/-! DEFINITION. The fields of STATUS (spec/10_state.md R25) and the failure codes (spec/60_exceptions.md R130). -/

namespace Sys2Proof.Machine

/-- `STATUS.BUSY`, bit 0 (R25). -/
def busyOf (st : BitVec 8) : Bool := st.getLsbD 0

/-- `STATUS.DONE`, bit 1 (R25). -/
def doneOf (st : BitVec 8) : Bool := st.getLsbD 1

/-- `STATUS.ERR`, bits 3:2 (R25). -/
def errOf (st : BitVec 8) : BitVec 2 := st.extractLsb' 2 2

/-- `STATUS[7:4]`, which read 0 always (R25). -/
def reservedOf (st : BitVec 8) : BitVec 4 := st.extractLsb' 4 4

/-- The word with the given fields, bits 7:4 zero (R25). -/
def statusWord (busy done : Bool) (err : BitVec 2) : BitVec 8 :=
  0#4 ++ err ++ BitVec.ofBool done ++ BitVec.ofBool busy

/-- `code(F)` (spec/60_exceptions.md R130). -/
def codeOf : Failure → BitVec 2
  | .lengthMismatch => 1#2
  | .invalidInput => 2#2
  | .invalidPadding => 3#2

/-- STATUS while a command is in progress: BUSY 1, DONE 0, ERR 0 (R29). -/
def statusBusy : BitVec 8 := statusWord true false 0#2

/-- What completion writes to STATUS.ERR: 0 on success, the failure's code otherwise (R30). -/
def errCode : Result → BitVec 2
  | .ok _ => 0#2
  | .fail f => codeOf f

/-- STATUS after completion with result `r`: BUSY 0, DONE 1, ERR the failure's code or 0 (R30). -/
def statusDone (r : Result) : BitVec 8 := statusWord false true (errCode r)

/-- `STATUS.BUSY` of the state. -/
def State.busy (s : State) : Bool := busyOf s.status

/-- `STATUS.DONE` of the state. -/
def State.isDone (s : State) : Bool := doneOf s.status

/-- `STATUS.ERR` of the state. -/
def State.err (s : State) : BitVec 2 := errOf s.status

/-- `OUTLEN` (R28): the length of the observable content of `OUT` (R35). -/
def State.outlen (s : State) : Nat := s.out.length

end Sys2Proof.Machine
end

