-- ==== Sys2Proof/Machine/Ops.lean ====
section
/-! DEFINITION. The named operations over the state: the cells of a space, command issue (spec/10_state.md R29), command
completion (R30; its failing case is what this hardware has in place of taking an exception, spec/60_exceptions.md R137),
and a read's reply. -/

namespace Sys2Proof.Machine

/-- The parameters of this instance (spec/00_scope.md R4 to R7; log entries 1 and 18). -/
def State.params (s : State) : Params := Config.params s.copy

/-- What an index that is not listed reads as: no byte has been written there (spec/10_state.md R38,
spec/70_reset_and_hazards.md R151). Log entry 3. -/
def Memory.unlisted : Option Byte := none

/-- The byte stored at index `i`, or none where nothing has been written since reset (R151). -/
def Memory.read : Memory → Nat → Option Byte
  | [], _ => Memory.unlisted
  | (j, b) :: m, i => if i = j then some b else Memory.read m i

/-- Store byte `b` at index `i`, keeping the indices strictly rising (spec/20_memory.md R45: that byte only). -/
def Memory.write : Memory → Nat → Byte → Memory
  | [], i, b => [(i, b)]
  | (j, c) :: m, i, b =>
    if i < j then (i, b) :: (j, c) :: m
    else if i = j then (i, b) :: m
    else (j, c) :: Memory.write m i b

/-- The canonical form: indices strictly rising. No written byte equals what an unlisted index reads as (nothing), so there is
no further condition. -/
def Memory.wf : Memory → Bool
  | [] => true
  | [_] => true
  | a :: b :: m => decide (a.1 < b.1) && Memory.wf (b :: m)

/-- Every stored index lies below `n`, the size of the space (spec/20_memory.md R41). -/
def Memory.below (n : Nat) (m : Memory) : Bool := m.all fun c => decide (c.1 < n)

/-- The stored bytes of the four spaces the HOST writes; REG and OUT hold none here (R41). -/
def State.cells (s : State) : Space → Memory
  | .key => s.key
  | .iv => s.iv
  | .inp => s.inp
  | .aux => s.aux
  | .reg => []
  | .out => []

/-- Store one byte in one of the four writable spaces; nothing aliases (spec/20_memory.md R43, R45). A byte of OUT is read
only (R46), and REG holds no bytes. -/
def State.storeByte (s : State) (sp : Space) (i : Nat) (b : Byte) : State :=
  match sp with
  | .key => { s with key := s.key.write i b }
  | .iv => { s with iv := s.iv.write i b }
  | .inp => { s with inp := s.inp.write i b }
  | .aux => { s with aux := s.aux.write i b }
  | .reg => s
  | .out => s

/-- `INLEN <- n` (spec/10_state.md R27). -/
def State.setInlen (s : State) (n : Nat) : State := { s with inlen := n }

/-- `AUXLEN <- n` (R27). -/
def State.setAuxlen (s : State) (n : Nat) : State := { s with auxlen := n }

/-- Command issue (R29): the word is latched, BUSY set, DONE, ERR and OUTLEN cleared, so OUT is unobservable. -/
def State.issue (s : State) (w : BitVec 8) : State :=
  { s with pend := some w, status := statusBusy, out := [] }

/-- A completed `RD` hands value `v` of location `l` to the HOST (spec/20_memory.md R44). -/
def State.reply (s : State) (l : Loc) (v : Nat) : State :=
  { s with returned := s.returned ++ [⟨l, v⟩] }

/-- One free value has been drawn. -/
def State.spend (s : State) : State := { s with draws := s.draws + 1 }

/-- The inputs that remain. -/
def State.withEvents (s : State) (es : List Event) : State := { s with events := es }

/-- What a command does besides the bookkeeping of completion: its result, the invocations of the Block Primitive it makes in
order (spec/42_cbc.md R109), and whether its read set held an unwritten byte (spec/70_reset_and_hazards.md R152). -/
structure Run where
  result : Result
  calls : List PrimCall
  drew : Bool
deriving DecidableEq, Repr

/-- A command that fails its word or length check: no operand is read and the primitive is not invoked (R132, R152). -/
def Run.rejected (f : Failure) : Run := ⟨.fail f, [], false⟩

/-- The bytes a result makes observable: `v`, or none on failure (R30, all or nothing). -/
def outputOf : Result → Bytes
  | .ok v => v
  | .fail _ => []

/-- Command completion (R30): the result goes to OUT, OUTLEN and STATUS, PEND and CHAIN lose their value, and nothing else
of the instance changes. The trace of the command is handed to the observer of the Block Primitive's port (R109). A run over
unwritten bytes is marked, and its free values are spent (R152; log entries 3, 4, 5). -/
def State.complete (s : State) (r : Run) : State :=
  { s with
    out := outputOf r.result
    status := statusDone r.result
    chain := none
    pend := none
    trace := s.trace ++ r.calls
    draws := if r.drew then s.draws + 1 else s.draws
    unspecified := s.unspecified || r.drew }

end Sys2Proof.Machine
end

