-- ==== Sys2Proof/WellFormed.lean ====
section
/-! DEFINITION. Well-formedness. Every command is well formed (it has no operand, spec/30_encoding.md R63); what can be ill
formed is an access of the host port: an index outside its space (spec/20_memory.md R42) or a value wider than its location
(R45). -/

namespace Sys2Proof

/-- Every command is well formed: R63 gives it nothing to get wrong. -/
def Instr.wf : Instr → Bool
  | .pad => true
  | .unpad => true
  | .xor => true
  | .cbcenc => true
  | .cbcdec => true

/-- The number of indices of each space (spec/20_memory.md R41). -/
def Space.size (P : Params) : Space → Nat
  | .reg => 5
  | .key => P.K
  | .iv => P.B
  | .inp => P.NMAX
  | .aux => P.NMAX
  | .out => P.OUTCAP

namespace Machine

/-- The pair is a location: its index lies in its space (R41, R42). -/
def Loc.wf (P : Params) (l : Loc) : Bool := l.index < l.space.size P

/-- The greatest value a location's width holds (spec/10_state.md R24: CMD and STATUS 8 bits, INLEN and AUXLEN LENW bits,
OUTLEN a natural up to OUTCAP; every other location is a byte). -/
def Loc.maxValue (P : Params) : Loc → Nat
  | ⟨.reg, 2⟩ => P.NMAX
  | ⟨.reg, 3⟩ => P.NMAX
  | ⟨.reg, 4⟩ => P.OUTCAP
  | _ => 255

/-- An access the spec gives a meaning: of a location, with a value of the location's width (R42, R45). -/
def Access.wf (P : Params) : Access → Bool
  | .rd l => l.wf P
  | .wr l v => l.wf P && decide (v ≤ l.maxValue P)

end Machine
end Sys2Proof
end

