-- ==== Sys2Proof/Machine/Operands.lean ====
section
/-! DEFINITION. The operands of the commands (spec/30_encoding.md R63): `MemRead` of the fixed places, and whether a command's
read set is written (spec/70_reset_and_hazards.md R152). -/

namespace Sys2Proof.Machine

/-- The byte a reader finds at index `i` of space `sp`: the stored byte, or at an unwritten index the free value of the
current draw (R151, R152: "the hardware computes with whatever the byte holds"). Log entry 3. -/
def State.byteAt (s : State) (sp : Space) (i : Nat) : Byte :=
  ((s.cells sp).read i).getD (Config.unwritten s.copy s.draws sp i)

/-- `MemRead(S, i, n)`: the `n` bytes from index `i`, in index order (spec/20_memory.md R58). -/
def State.memRead (s : State) (sp : Space) (i n : Nat) : Bytes :=
  (List.range n).map fun j => s.byteAt sp (i + j)

/-- Every one of the first `n` bytes of the space has been written since reset (R151). -/
def State.isWritten (s : State) (sp : Space) (n : Nat) : Bool :=
  (List.range n).all fun i => ((s.cells sp).read i).isSome

/-- The first operand: `MemRead(IN, 0, INLEN)` (R63). -/
def State.inOperand (s : State) : Bytes := s.memRead .inp 0 s.inlen

/-- The second operand of XOR: `MemRead(AUX, 0, AUXLEN)` (R63). -/
def State.auxOperand (s : State) : Bytes := s.memRead .aux 0 s.auxlen

/-- `key = MemRead(KEY, 0, K)` (R63). -/
def State.keyOperand (P : Params) (s : State) : Bytes := s.memRead .key 0 P.K

/-- `iv = MemRead(IV, 0, B)` (R63). -/
def State.ivOperand (P : Params) (s : State) : Bytes := s.memRead .iv 0 P.B

/-- The read set of PAD and UNPAD is written (R152). -/
def State.inWritten (s : State) : Bool := s.isWritten .inp s.inlen

/-- The read set of XOR is written (R152). -/
def State.xorWritten (s : State) : Bool := s.isWritten .inp s.inlen && s.isWritten .aux s.auxlen

/-- The read set of CBCENC and CBCDEC is written (R152). -/
def State.cbcWritten (P : Params) (s : State) : Bool :=
  s.isWritten .inp s.inlen && s.isWritten .key P.K && s.isWritten .iv P.B

end Sys2Proof.Machine
end

