-- ==== Sys2Proof/Machine/Padding.lean ====
section
/-! DEFINITION. The Padding Codec (spec/40_padding.md): `pad`, `unpad`, and the commands PAD and UNPAD. -/

namespace Sys2Proof.Machine

/-- `pad(x)` (R80). -/
def pad (P : Params) (x : Bytes) : Result :=
  let L := x.length
  if L > P.B then .fail .invalidInput
  else
    let n := if L = P.B then P.B else P.B - L
    .ok (x ++ rep (BitVec.ofNat 8 n) n)

/-- `unpad(y)` (R82): the one candidate is the last byte; the last `n` bytes must all equal it (R83). -/
def unpad (P : Params) (y : Bytes) : Result :=
  let M := y.length
  if M = 0 ∨ M % P.B ≠ 0 then .fail .invalidInput
  else
    let last := y.getLastD 0
    let n := last.toNat
    if n < 1 ∨ n > P.B then .fail .invalidPadding
    else if (slice y (M - n) n).all (· == last) then .ok (slice y 0 (M - n))
    else .fail .invalidPadding

/-- What PAD does (R85): the length check comes before any byte is read. -/
def padRun (P : Params) (s : State) : Run :=
  if s.inlen > P.B then .rejected .invalidInput
  else ⟨pad P s.inOperand, [], !s.inWritten⟩

/-- What UNPAD does (R86): the length check comes before any byte is read. -/
def unpadRun (P : Params) (s : State) : Run :=
  if s.inlen = 0 ∨ s.inlen % P.B ≠ 0 then .rejected .invalidInput
  else ⟨unpad P s.inOperand, [], !s.inWritten⟩

/-- PAD (R85), completed by R30. -/
def execPad (s : State) : Host.Outcome State Fault Refusal := .next (s.complete (padRun s.params s))

/-- UNPAD (R86), completed by R30. -/
def execUnpad (s : State) : Host.Outcome State Fault Refusal := .next (s.complete (unpadRun s.params s))

end Sys2Proof.Machine
end

