-- ==== Sys2Proof/Machine/Xor.lean ====
section
/-! DEFINITION. The XOR Utility (spec/41_xor.md): `xor` and the command XOR. -/

namespace Sys2Proof.Machine

/-- `xor(a, b)` (R90): the length comparison first, then byte by byte (R91). -/
def xorSeq (a b : Bytes) : Result :=
  if a.length ≠ b.length then .fail .lengthMismatch else .ok (xorBytes a b)

/-- What XOR does (R93): the mismatch is decided from the two length registers alone. -/
def xorRun (s : State) : Run :=
  if s.inlen ≠ s.auxlen then .rejected .lengthMismatch
  else ⟨xorSeq s.inOperand s.auxOperand, [], !s.xorWritten⟩

/-- XOR (R93), completed by spec/10_state.md R30. -/
def execXor (s : State) : Host.Outcome State Fault Refusal := .next (s.complete (xorRun s))

end Sys2Proof.Machine
end

