-- ==== Sys2Proof/Machine/Cbc.lean ====
section
/-! DEFINITION. The CBC Engine (spec/42_cbc.md): `cbc_encrypt`, `cbc_decrypt`, the order of primitive invocations, and the
commands CBCENC and CBCDEC. The chaining state is the argument `chain` of the two folds (spec/10_state.md R22 lets it be local
to the step); it ends with the command. -/

namespace Sys2Proof.Machine

/-- The blocks `X_0 .. X_q` that `cbc_encrypt` processes: the full chunks, then `pad(fin)`, which is always one block (R101,
R102). -/
def encInputs (P : Params) (p : Bytes) : List Bytes :=
  blocks P.B p (p.length / P.B) ++ [outputOf (pad P (finalChunk P.B p))]

/-- The loop of `cbc_encrypt` (R101): for each block, in order, the Block given to `E` and the block `E` answers, which becomes
the chaining state. -/
def encFold (P : Params) (key : Bytes) : Bytes → List Bytes → List (Bytes × Bytes)
  | _, [] => []
  | chain, X :: Xs =>
    let combined := xorBytes chain X
    let outBlock := P.E combined key
    (combined, outBlock) :: encFold P key outBlock Xs

/-- `cbc_encrypt(p, key, iv)` (R101): `C_0 ++ ... ++ C_q`. It never fails. -/
def cbcEncrypt (P : Params) (p key iv : Bytes) : Bytes :=
  ((encFold P key iv (encInputs P p)).map Prod.snd).flatten

/-- The trace of `cbc_encrypt` (R109): `(ENC, xor(C_(j-1), X_j), key)` for `j = 0 .. q`. -/
def encCalls (P : Params) (p key iv : Bytes) : List PrimCall :=
  (encFold P key iv (encInputs P p)).map fun r => ⟨.enc, r.1, key⟩

/-- The loop of `cbc_decrypt` (R105), up to the codec: `R_j = xor(D(C_j, key), C_(j-1))` in order; the chaining state takes the
ciphertext block. -/
def decFold (P : Params) (key : Bytes) : Bytes → List Bytes → List Bytes
  | _, [] => []
  | chain, C :: Cs => xorBytes (P.D C key) chain :: decFold P key C Cs

/-- `R_0 ++ ... ++ R_(m-2) ++ unpad(R_(m-1))`; the codec is applied to the last block only, and its failure is the whole
call's (R105). -/
def unpadLast (P : Params) : List Bytes → Result
  | [] => .ok []
  | [R] => unpad P R
  | R :: Rs =>
    match unpadLast P Rs with
    | .ok v => .ok (R ++ v)
    | .fail f => .fail f

/-- `cbc_decrypt(c, key, iv)` (R104, R105). -/
def cbcDecrypt (P : Params) (c key iv : Bytes) : Result :=
  if c.length = 0 ∨ c.length % P.B ≠ 0 then .fail .invalidInput
  else unpadLast P (decFold P key iv (blocks P.B c (c.length / P.B)))

/-- The trace of `cbc_decrypt` (R109): empty when the length precondition fails, else `(DEC, blk_j, key)` for `j = 0 .. m-1`,
whether or not the codec accepts the last block (R107). -/
def decCalls (P : Params) (c key : Bytes) : List PrimCall :=
  if c.length = 0 ∨ c.length % P.B ≠ 0 then []
  else (blocks P.B c (c.length / P.B)).map fun blk => ⟨.dec, blk, key⟩

/-- What CBCENC does (R110). -/
def cbcencRun (P : Params) (s : State) : Run :=
  ⟨.ok (cbcEncrypt P s.inOperand (s.keyOperand P) (s.ivOperand P)),
   encCalls P s.inOperand (s.keyOperand P) (s.ivOperand P),
   !s.cbcWritten P⟩

/-- What CBCDEC does (R111): the length check comes before any byte is read and any `D` is invoked. -/
def cbcdecRun (P : Params) (s : State) : Run :=
  if s.inlen = 0 ∨ s.inlen % P.B ≠ 0 then .rejected .invalidInput
  else
    ⟨cbcDecrypt P s.inOperand (s.keyOperand P) (s.ivOperand P),
     decCalls P s.inOperand (s.keyOperand P),
     !s.cbcWritten P⟩

/-- CBCENC (R110), completed by spec/10_state.md R30. -/
def execCbcenc (s : State) : Host.Outcome State Fault Refusal := .next (s.complete (cbcencRun s.params s))

/-- CBCDEC (R111), completed by spec/10_state.md R30. -/
def execCbcdec (s : State) : Host.Outcome State Fault Refusal := .next (s.complete (cbcdecRun s.params s))

end Sys2Proof.Machine
end

