-- ==== Sys2Proof/Machine/Engine.lean ====
section
/-! DEFINITION. The ENGINE's one kind of step (spec/10_state.md R30) and the RESET event (spec/70_reset_and_hazards.md R150,
R153). -/

namespace Sys2Proof.Machine

/-- What each command does (R85, R86, R93, R110, R111), as one function of the command. -/
def runOf (P : Params) : Instr → State → Run
  | .pad, s => padRun P s
  | .unpad, s => unpadRun P s
  | .xor, s => xorRun s
  | .cbcenc, s => cbcencRun P s
  | .cbcdec, s => cbcdecRun P s

/-- A malformed word: completion with `InvalidInput`, no invocation, no operand read (spec/30_encoding.md R64). -/
def execMalformed (s : State) : Host.Outcome State Fault Refusal :=
  .next (s.complete (.rejected .invalidInput))

/-- Command completion of the word latched in PEND (R30, R31). -/
def engineStep (s : State) : Host.Outcome State Fault Refusal :=
  match s.pend with
  | none => .fault .busyWithoutCommand
  | some w =>
    match decode w with
    | .command i => exec i s
    | .malformed _ => execMalformed s

/-- The invocations the command in progress would make if it completed (spec/42_cbc.md R109). -/
def State.pendingCalls (P : Params) (s : State) : List PrimCall :=
  match s.pend with
  | none => []
  | some w =>
    match decode w with
    | .command i => (runOf P i s).calls
    | .malformed _ => []

/-- RESET (R150): every piece of the instance's state takes its value of spec/10_state.md R38. A command in progress is
abandoned: no output and no code, and the invocations it had made are a prefix of its full trace, which one is a free value
(R153; log entry 7). The model's own inputs and observations go on, and
the copy stays the one it is. -/
def State.doReset (P : Params) (s : State) : State :=
  { State.reset with
    copy := s.copy
    events := s.events
    returned := s.returned
    trace := if s.busy then s.trace ++ (s.pendingCalls P).take (Config.abandonedAfter s.copy s.draws) else s.trace
    draws := if s.busy then s.draws + 1 else s.draws }

/-- Put a command word where the next completion takes it: the effect of the HOST's `WR(REG, 0, w)` (R29), and the ENGINE's
turn next. Log entry 20. -/
def State.withCommand (s : State) (w : BitVec 8) : State :=
  (s.issue w).withEvents (.engine :: s.events)

end Sys2Proof.Machine
end

