-- ==== Sys2Proof/Machine/Port.lean ====
section
/-! DEFINITION. The host port (spec/20_memory.md R44 to R47): what an `RD` returns, what a `WR` does, and which accesses are
held while a command is in progress. -/

namespace Sys2Proof.Machine

/-- The value an `RD` of a location finds (R44), or none at an unwritten byte (spec/70_reset_and_hazards.md R151). `CMD` reads
0 (R46), and a byte of `OUT` at or above `OUTLEN` reads `0x00` (spec/10_state.md R35). -/
def State.readLoc (s : State) (l : Loc) : Option Nat :=
  match l.space with
  | .reg =>
    match l.index with
    | 0 => some 0
    | 1 => some s.status.toNat
    | 2 => some s.inlen
    | 3 => some s.auxlen
    | _ => some s.outlen
  | .out => some (s.out.getD l.index 0).toNat
  | .key => (s.key.read l.index).map BitVec.toNat
  | .iv => (s.iv.read l.index).map BitVec.toNat
  | .inp => (s.inp.read l.index).map BitVec.toNat
  | .aux => (s.aux.read l.index).map BitVec.toNat

/-- A completed `RD` (R44): it changes nothing of the instance. At an unwritten byte the value is a free value, drawn afresh
(R151; log entry 3). -/
def State.doRead (s : State) (l : Loc) : State :=
  match s.readLoc l with
  | some v => s.reply l v
  | none => (s.reply l (Config.unwritten s.copy s.draws l.space l.index).toNat).spend

/-- A completed `WR` (R45): CMD issues a command, INLEN and AUXLEN take the value, a byte of KEY, IV, IN or AUX takes the value
and becomes written, and STATUS, OUTLEN and OUT ignore it (R46). -/
def State.doWrite (s : State) (l : Loc) (v : Nat) : State :=
  match l.space with
  | .reg =>
    match l.index with
    | 0 => s.issue (BitVec.ofNat 8 v)
    | 2 => s.setInlen v
    | 3 => s.setAuxlen v
    | _ => s
  | .out => s
  | .key => s.storeByte .key l.index (BitVec.ofNat 8 v)
  | .iv => s.storeByte .iv l.index (BitVec.ofNat 8 v)
  | .inp => s.storeByte .inp l.index (BitVec.ofNat 8 v)
  | .aux => s.storeByte .aux l.index (BitVec.ofNat 8 v)

/-- The effect of a completed access (R44, R45). -/
def State.doAccess (s : State) : Access → State
  | .rd l => s.doRead l
  | .wr l v => s.doWrite l v

/-- The access is held (R47): a command is in progress and it is not the `RD` of STATUS. -/
def State.holds (s : State) (a : Access) : Bool := s.busy && decide (a ≠ .rd .status)

/-- The HOST's step for an access that is not held. What is no access of a location (R42, R45) stops by name (log entry 10). -/
def hostAccess (P : Params) (a : Access) (s : State) : Host.Outcome State Fault Refusal :=
  match a with
  | .rd l => if l.wf P then .next (s.doAccess a) else .fault .noSuchLocation
  | .wr l v =>
    if l.wf P then
      if v ≤ l.maxValue P then .next (s.doAccess a) else .fault .valueTooWide
    else .fault .noSuchLocation

end Sys2Proof.Machine
end

