-- ==== Sys2Proof/Machine/Step.lean ====
section
/-! DEFINITION. One step of the machine. The head of `events` says who moves next (log entry 6): a HOST access completes unless
it is held (spec/20_memory.md R47), in which case the ENGINE completes the command in progress and the access waits; an ENGINE
turn completes the command in progress, if there is one; RESET may come at any time (spec/70_reset_and_hazards.md R150). With
no input left, a command in progress completes (R164), and an idle instance stays idle (spec/60_exceptions.md R145). -/

namespace Sys2Proof.Machine

def step (s : State) : Host.Outcome State Fault Refusal :=
  match s.events with
  | [] => if s.busy then engineStep s else .next s
  | .reset :: es => .next ((s.withEvents es).doReset s.params)
  | .engine :: es => if s.busy then engineStep (s.withEvents es) else .next (s.withEvents es)
  | .access a :: es => if s.holds a then engineStep s else hostAccess s.params a (s.withEvents es)

/-- `s` with the command word `w` issued and the ENGINE to move next, so that `step` runs exactly that command. A command is one
8-bit word, so `nbits` is 8 for every row of the table. Log entry 20. -/
def State.withFetchWord (s : State) (_nbits w : Nat) : State := s.withCommand (BitVec.ofNat 8 w)

end Sys2Proof.Machine
end

