-- ==== Sys2Proof/Machine/Instances.lean ====
section
/-! DEFINITION. Several instances (spec/60_exceptions.md R144): the product of independent copies of the model. Each copy has its
own parameters and its own free values, since Config gives both by the number of the copy; nothing in Lean relates those of two
copies (log entry 18). -/

namespace Sys2Proof.Machine

/-- `n` instances right after reset: copies `0 .. n-1` of the model (R144). -/
def instancesAtReset (n : Nat) : List State := (List.range n).map fun c => { State.reset with copy := c }

/-- No two instances of the product are the same copy, so no parameter or free value of one is tied to another's (R144: "share
nothing"; log entry 18). -/
def distinctCopies (ss : List State) : Prop := (ss.map State.copy).Nodup

/-- Instance `i` of the product takes one step; the others keep their states. An index that names no instance changes nothing.
The order in which the instances step is the caller's. That the unwritten bytes and the abandoned prefixes of two distinct copies
are unrelated is the model's choice: the spec (spec/70_reset_and_hazards.md R151, R153) relates them nowhere. Log entry 18. -/
def stepInstance (ss : List State) (i : Nat) : Host.Outcome (List State) Fault Refusal :=
  match ss[i]? with
  | none => .next ss
  | some s =>
    match step s with
    | .next t => .next (ss.set i t)
    | .fault f => .fault f
    | .refused r => .refused r

end Sys2Proof.Machine
end

