-- ==== Sys2Proof/Machine/Script.lean ====
section
/-! DEFINITION. The host-script notation (spec/30_encoding.md R66 to R72): each statement as the port operations it expands to,
in order. Where an expansion depends on a value read, that value is an argument (log entry 19). -/

namespace Sys2Proof.Machine.Script

/-- `wr SPACE[i], v` (R66). -/
def wr (sp : Space) (i v : Nat) : List Access := [.wr ⟨sp, i⟩ v]

/-- `rd SPACE[i]` (R66). -/
def rd (sp : Space) (i : Nat) : List Access := [.rd ⟨sp, i⟩]

/-- A double-quoted ASCII literal (R67), given as its characters. -/
def ascii (cs : List Char) : Bytes := cs.map fun c => BitVec.ofNat 8 c.toNat

/-- `wr SPACE[0], s[0]` up to the last byte of `s` (R68). -/
def loadFrom (sp : Space) : Nat → Bytes → List Access
  | _, [] => []
  | i, b :: bs => .wr ⟨sp, i⟩ b.toNat :: loadFrom sp (i + 1) bs

/-- `ldkey s` (R68): a literal of another length than `K` is an assembly error. -/
def ldkey (P : Params) (s : Bytes) : Option (List Access) :=
  if s.length = P.K then some (loadFrom .key 0 s) else none

/-- `ldiv s` (R68): a literal of another length than `B` is an assembly error. -/
def ldiv (P : Params) (s : Bytes) : Option (List Access) :=
  if s.length = P.B then some (loadFrom .iv 0 s) else none

/-- `ldin s` (R68): the bytes, then the length register. -/
def ldin (P : Params) (s : Bytes) : Option (List Access) :=
  if s.length ≤ P.NMAX then some (loadFrom .inp 0 s ++ [.wr .inlen s.length]) else none

/-- `ldaux s` (R68). -/
def ldaux (P : Params) (s : Bytes) : Option (List Access) :=
  if s.length ≤ P.NMAX then some (loadFrom .aux 0 s ++ [.wr .auxlen s.length]) else none

/-- `cmd v`: `wr CMD, v` for any 8-bit `v` (R69). -/
def cmd (v : BitVec 8) : List Access := [.wr .cmd v.toNat]

/-- The mnemonics `pad`, `unpad`, `xor`, `cbcenc`, `cbcdec` (R69). -/
def command (i : Instr) : List Access := cmd (encode i)

/-- `wait` (R70), where the first read that shows BUSY = 0 is read number `polls`. -/
def wait (polls : Nat) : List Access := List.replicate polls (.rd .status)

/-- `rdout` (R71), where `rd OUTLEN` has returned `n`. -/
def rdout (n : Nat) : List Access := .rd .outlen :: (List.range n).map fun i => .rd ⟨.out, i⟩

/-- The outcome `rderr` shows for the last STATUS value read (R71): `none` is success. -/
def rderrShows (st : BitVec 8) : Option Failure :=
  match (st.extractLsb' 2 2).toNat with
  | 0 => none
  | 1 => some .lengthMismatch
  | 2 => some .invalidInput
  | _ => some .invalidPadding

/-- The copies of `mvout` from index `i` on, where the reads of OUT return `vs`. -/
def copyFrom : Nat → Bytes → List Access
  | _, [] => []
  | i, v :: vs => .rd ⟨.out, i⟩ :: .wr ⟨.inp, i⟩ v.toNat :: copyFrom (i + 1) vs

/-- `mvout` (R72), where the result read from OUT is `vs`. -/
def mvout (vs : Bytes) : List Access := .rd .outlen :: copyFrom 0 vs ++ [.wr .inlen vs.length]

end Sys2Proof.Machine.Script
end

