-- ==== Sys2Proof/Safety.lean ====
section
/-! DEFINITION. The terms claims use: the invariants of spec/10_state.md R37 with the form of the stored bytes, what a command
leaves unchanged, and which bytes a space holds. -/

namespace Sys2Proof.Machine

/-- The bytes of space `sp` from index 0 on are exactly `x` (each one written). -/
def State.Holds (s : State) (sp : Space) (x : Bytes) : Prop :=
  ∀ i, i < x.length → (s.cells sp).read i = x[i]?

/-- `t` has the operands of `s`: KEY, IV, IN, AUX, INLEN and AUXLEN (R30: unchanged by a command). -/
def State.SameOperands (s t : State) : Prop :=
  t.key = s.key ∧ t.iv = s.iv ∧ t.inp = s.inp ∧ t.aux = s.aux ∧ t.inlen = s.inlen ∧ t.auxlen = s.auxlen

/-- `t` has the inputs and the read replies of `s`: the ENGINE's step touches neither. -/
def State.SameHost (s t : State) : Prop :=
  t.events = s.events ∧ t.returned = s.returned

/-- `t` has drawn no free value and marked no run that `s` had not. -/
def State.NoDraw (s t : State) : Prop :=
  t.draws = s.draws ∧ t.unspecified = s.unspecified

/-- What completion with result `r`, having made the primitive invocations `calls`, leaves (R30): the result observable in OUT,
OUTLEN and STATUS, PEND and CHAIN without value, the invocations in the trace, and the operands, the inputs, the read replies
and the copy as they were. -/
structure State.CompletedWith (s t : State) (r : Result) (calls : List PrimCall) : Prop where
  out : t.out = outputOf r
  outlen : t.outlen = (outputOf r).length
  busy : t.busy = false
  done : t.isDone = true
  err : t.err = errCode r
  reserved : reservedOf t.status = 0#4
  chain : t.chain = none
  pend : t.pend = none
  trace : t.trace = s.trace ++ calls
  operands : s.SameOperands t
  host : s.SameHost t
  copy : t.copy = s.copy

/-- The byte sequence ends in a valid padding (spec/40_padding.md R82): its last `n` bytes all have value `n`, for some `n` in
`1..B`. -/
def ValidTail (P : Params) (y : Bytes) : Prop :=
  ∃ (x : Bytes) (n : Nat), 1 ≤ n ∧ n ≤ P.B ∧ y = x ++ rep (BitVec.ofNat 8 n) n

/-- The recovered blocks `R_0 .. R_(m-1)` of a ciphertext of `m` blocks (spec/42_cbc.md R105). -/
def recovered (P : Params) (c key iv : Bytes) : List Bytes :=
  decFold P key iv (blocks P.B c (c.length / P.B))

/-- R37 (a): while a command is in progress, DONE = 0, ERR = 0, OUTLEN = 0 and PEND has a value. -/
def State.BusyInv (s : State) : Prop :=
  s.busy = true → s.isDone = false ∧ s.err = 0#2 ∧ s.outlen = 0 ∧ s.pend.isSome = true

/-- R37 (b): while no command is in progress, PEND and CHAIN have no value. -/
def State.IdleInv (s : State) : Prop :=
  s.busy = false → s.pend = none ∧ s.chain = none

/-- R37 (c): a failure code stands only beside DONE = 1 and OUTLEN = 0. -/
def State.ErrInv (s : State) : Prop :=
  s.err ≠ 0#2 → s.isDone = true ∧ s.outlen = 0

/-- R37 (e) and (f), and spec/10_state.md R27: OUTLEN within OUTCAP, STATUS[7:4] zero, the length registers within NMAX. -/
def State.RangeInv (P : Params) (s : State) : Prop :=
  s.outlen ≤ P.OUTCAP ∧ reservedOf s.status = 0#4 ∧ s.inlen ≤ P.NMAX ∧ s.auxlen ≤ P.NMAX

/-- The stored bytes of the four writable spaces keep their canonical form and lie inside their spaces (spec/20_memory.md
R41). -/
def State.MemInv (P : Params) (s : State) : Prop :=
  ∀ sp, (s.cells sp).wf = true ∧ (s.cells sp).below (sp.size P) = true

/-- Every Block fed to the Block Primitive had exactly `B` bytes, and every key `K` (spec/42_cbc.md R109). -/
def State.TraceInv (P : Params) (s : State) : Prop :=
  ∀ c ∈ s.trace, c.block.length = P.B ∧ c.key.length = P.K

/-- The invariants of spec/10_state.md R37 and the form of the stored bytes, together. -/
structure State.Inv (P : Params) (s : State) : Prop where
  busy : s.BusyInv
  idle : s.IdleInv
  err : s.ErrInv
  range : s.RangeInv P
  mem : s.MemInv P

end Sys2Proof.Machine
end

