-- ==== Sys2Proof/Certificates/Slice0/Obligations.lean ====
section
/-! DEFINITION. The statements for the provers. Those about the pure functions hold for EVERY parameter record `P`; those about
the machine are about any copy of it, whose parameters `s.params` are opaque, so they too hold whatever the parameters are. -/

open Sys2Proof Sys2Proof.Machine

-- ---------------------------------------------------------------- encoding

/-- R61, R62: a word is the command whose `OP` it carries under `RSV = 0`; every other word is malformed. -/
def Obligations.DecodingFollowsTheOpcodeMap : Prop :=
  ∀ w : BitVec 8,
    (∀ i : Instr, decode w = .command i ↔ fieldRSV w = 0#5 ∧ fieldOP w = opOf i) ∧
    ((∃ m, decode w = .malformed m) ↔ fieldRSV w ≠ 0#5 ∨ fieldOP w = 0#3 ∨ fieldOP w = 6#3 ∨ fieldOP w = 7#3)

/-- R62: the words of the table, written out bit by bit, and three neighbours that are malformed. -/
def Obligations.OpcodeTableWordsDecode : Prop :=
  decode 0b00000001#8 = .command .pad ∧ decode 0b00000010#8 = .command .unpad ∧
  decode 0b00000011#8 = .command .xor ∧ decode 0b00000100#8 = .command .cbcenc ∧
  decode 0b00000101#8 = .command .cbcdec ∧ decode 0b00000000#8 = .malformed .reservedOp ∧
  decode 0b00000110#8 = .malformed .reservedOp ∧ decode 0b10000011#8 = .malformed .reservedBits

/-- Decode and encode agree on every command, and no other word decodes to it (R60, R62). -/
def Obligations.DecodeInvertsEncode : Prop :=
  ∀ (i : Instr) (w : BitVec 8), decode w = .command i ↔ w = encode i

-- ---------------------------------------------------------------- the Padding Codec

/-- R81 (a) to (f): what `pad` does to a sequence of at most one block, and when it fails. -/
def Obligations.PadProperties : Prop :=
  ∀ P : Params,
    (∀ x : Bytes, x.length ≤ P.B → ∃ v n, pad P x = .ok v ∧ v.length = x.length + n ∧
      v.length = (if x.length < P.B then P.B else 2 * P.B) ∧ 0 < v.length ∧ v.length % P.B = 0 ∧
      1 ≤ n ∧ n ≤ P.B ∧ v.getLast?.map BitVec.toNat = some n) ∧
    pad P [] = .ok (rep (BitVec.ofNat 8 P.B) P.B) ∧
    (∀ x y : Bytes, x.length ≤ P.B → y.length ≤ P.B → pad P x = pad P y → x = y) ∧
    (∀ (x : Bytes) (f : Failure), pad P x = .fail f ↔ f = .invalidInput ∧ P.B < x.length)

/-- R82, R83: `unpad` accepts exactly the aligned non-empty sequences that end in `n` bytes of value `n`, strips exactly those,
and tells the two failures apart by the length alone. -/
def Obligations.UnpadAcceptsExactlyValidTails : Prop :=
  ∀ (P : Params) (y : Bytes),
    (∀ x : Bytes, unpad P y = .ok x ↔ 0 < y.length ∧ y.length % P.B = 0 ∧
      ∃ n, 1 ≤ n ∧ n ≤ P.B ∧ y = x ++ rep (BitVec.ofNat 8 n) n) ∧
    (unpad P y = .fail .invalidInput ↔ y.length = 0 ∨ y.length % P.B ≠ 0) ∧
    (unpad P y = .fail .invalidPadding ↔ 0 < y.length ∧ y.length % P.B = 0 ∧ ¬ ValidTail P y)

/-- R84: `unpad` inverts `pad`; the converse does not hold: `unpad` succeeds on a sequence that is the padding of nothing, and
its answer may be too long to pad. -/
def Obligations.UnpadInvertsPad : Prop :=
  ∀ P : Params,
    (∀ x : Bytes, x.length ≤ P.B → unpad P (outputOf (pad P x)) = .ok x) ∧
    (∃ y v : Bytes, unpad P y = .ok v ∧ (∀ x : Bytes, x.length ≤ P.B → pad P x ≠ .ok y) ∧
      pad P v = .fail .invalidInput)

/-- R116 (its exact part): a block with a valid tail of `n ≥ 2` bytes whose last byte is replaced by another value is rejected,
unless the new last byte is 1. -/
def Obligations.ReplacedLastByteIsRejectedUnlessOne : Prop :=
  ∀ (P : Params) (x : Bytes) (n : Nat) (b : Byte), 2 ≤ n → n ≤ P.B → b ≠ BitVec.ofNat 8 n →
    (x ++ rep (BitVec.ofNat 8 n) n).length % P.B = 0 →
    (unpad P (x ++ rep (BitVec.ofNat 8 n) (n - 1) ++ [b]) = .fail .invalidPadding ↔ b ≠ 1#8) ∧
    (b = 1#8 → unpad P (x ++ rep (BitVec.ofNat 8 n) (n - 1) ++ [b]) = .ok (x ++ rep (BitVec.ofNat 8 n) (n - 1)))

-- ---------------------------------------------------------------- the XOR Utility

/-- R90: lengths first, then each bit of each lane by itself; the length is kept. -/
def Obligations.XorContract : Prop :=
  (∀ a b : Bytes, a.length ≠ b.length → xorSeq a b = .fail .lengthMismatch) ∧
  (∀ a b : Bytes, a.length = b.length → ∃ c, xorSeq a b = .ok c ∧ c.length = a.length ∧
    ∀ i, i < a.length → ∀ j, j < 8 →
      (c.getD i 0).getLsbD j = ((a.getD i 0).getLsbD j ^^ (b.getD i 0).getLsbD j)) ∧
  xorSeq [] [] = .ok []

/-- R92 (a) to (e): the laws of `xor` on sequences of one common length. -/
def Obligations.XorLaws : Prop :=
  ∀ a b c : Bytes, a.length = b.length → b.length = c.length →
    xorSeq a b = .ok (xorBytes a b) ∧ xorSeq a b = xorSeq b a ∧
    xorBytes (xorBytes a b) c = xorBytes a (xorBytes b c) ∧
    xorSeq a (rep 0 a.length) = .ok a ∧
    xorSeq a a = .ok (rep 0 a.length) ∧ xorBytes (xorBytes a b) b = a ∧
    (∀ i n, slice (xorBytes a b) i n = xorBytes (slice a i n) (slice b i n)) ∧
    (∀ a' b' : Bytes, a'.length = b'.length → xorBytes (a ++ a') (b ++ b') = xorBytes a b ++ xorBytes a' b')

-- ---------------------------------------------------------------- the CBC Engine

/-- R100: a message is its full chunks in order and then its final chunk, shorter than a block and empty exactly at a block
boundary. -/
def Obligations.MessageSplitsIntoChunks : Prop :=
  ∀ (P : Params) (p : Bytes),
    (blocks P.B p (p.length / P.B)).flatten ++ finalChunk P.B p = p ∧
    (blocks P.B p (p.length / P.B)).length = p.length / P.B ∧
    (∀ j, j < p.length / P.B → (blocks P.B p (p.length / P.B))[j]? = some (slice p (j * P.B) P.B)) ∧
    (∀ x ∈ blocks P.B p (p.length / P.B), x.length = P.B) ∧
    (finalChunk P.B p).length = p.length % P.B ∧
    (finalChunk P.B p = [] ↔ p.length % P.B = 0)

/-- R101: the equations of `cbc_encrypt`, and with them the records of R109. `X j` is the j-th block processed: a full chunk, or at
`q` the padded final chunk, which is one block; `C j` is the j-th ciphertext block; record `j` of the trace carries the Block
`xor(C_(j-1), X_j)` and the key, and there is no other record. -/
def Obligations.EncryptEquations : Prop :=
  ∀ (P : Params) (p key iv : Bytes), iv.length = P.B →
    ∃ X C : List Bytes, X.length = p.length / P.B + 1 ∧ C.length = p.length / P.B + 1 ∧
      (∀ j, j < p.length / P.B → X[j]? = some (slice p (j * P.B) P.B)) ∧
      (∃ last, X[p.length / P.B]? = some last ∧ pad P (finalChunk P.B p) = .ok last) ∧
      (∀ x ∈ X, x.length = P.B) ∧
      (∀ j, j ≤ p.length / P.B →
        xorSeq (if j = 0 then iv else C.getD (j - 1) []) (X.getD j []) = .ok
          (xorBytes (if j = 0 then iv else C.getD (j - 1) []) (X.getD j [])) ∧
        C[j]? = some (P.E (xorBytes (if j = 0 then iv else C.getD (j - 1) []) (X.getD j [])) key) ∧
        (encCalls P p key iv)[j]? = some
          ⟨.enc, xorBytes (if j = 0 then iv else C.getD (j - 1) []) (X.getD j []), key⟩) ∧
      (encCalls P p key iv).length = p.length / P.B + 1 ∧
      cbcEncrypt P p key iv = C.flatten

/-- R103, R113: the length of a ciphertext, the number of `E` invocations, and the alignment on both sides. -/
def Obligations.CiphertextLength : Prop :=
  ∀ (P : Params) (p key iv : Bytes),
    (cbcEncrypt P p key iv).length = (p.length / P.B + 1) * P.B ∧
    (cbcEncrypt P p key iv).length % P.B = 0 ∧
    p.length / P.B * P.B < (cbcEncrypt P p key iv).length ∧
    p.length < (cbcEncrypt P p key iv).length ∧ P.B ≤ (cbcEncrypt P p key iv).length ∧
    (encCalls P p key iv).length = p.length / P.B + 1 ∧
    (∀ c : Bytes, c.length % P.B ≠ 0 → cbcDecrypt P c key iv = .fail .invalidInput)

/-- R104: the length precondition of `cbc_decrypt`, decided from the length alone and before any `D`. -/
def Obligations.DecryptPrecondition : Prop :=
  ∀ (P : Params) (c key iv : Bytes), iv.length = P.B →
    (c.length = 0 ∨ c.length % P.B ≠ 0 → cbcDecrypt P c key iv = .fail .invalidInput ∧ decCalls P c key = []) ∧
    (c.length % P.B = 0 → P.B ≤ c.length → cbcDecrypt P c key iv ≠ .fail .invalidInput)

/-- R105: the equations of `cbc_decrypt`. `R j` is the j-th recovered block; the codec sees the last one only. -/
def Obligations.DecryptEquations : Prop :=
  ∀ (P : Params) (c key iv : Bytes), iv.length = P.B → 0 < c.length → c.length % P.B = 0 →
    ∃ (R : List Bytes) (last : Bytes), R.length + 1 = c.length / P.B ∧
      (∀ j, j < c.length / P.B → (R ++ [last])[j]? = some
        (xorBytes (P.D (slice c (j * P.B) P.B) key) (if j = 0 then iv else slice c ((j - 1) * P.B) P.B))) ∧
      (∀ x ∈ R ++ [last], x.length = P.B) ∧
      (∀ v, unpad P last = .ok v → cbcDecrypt P c key iv = .ok (R.flatten ++ v)) ∧
      (∀ f, unpad P last = .fail f → f = .invalidPadding ∧ cbcDecrypt P c key iv = .fail .invalidPadding)

/-- R106: the length of a decryption is the operand's less the value of the last recovered byte; the blocks before the last come
out whole; a one-block operand that is all padding gives the empty sequence; only two failures exist. -/
def Obligations.DecryptResultLength : Prop :=
  ∀ (P : Params) (c key iv : Bytes), iv.length = P.B →
    (∀ v, cbcDecrypt P c key iv = .ok v → ∃ last n, (recovered P c key iv).getLast? = some last ∧
      last.length = P.B ∧ last.getLast?.map BitVec.toNat = some n ∧ 1 ≤ n ∧ n ≤ P.B ∧
      v.length + n = c.length ∧ v = ((recovered P c key iv).flatten).take (c.length - n) ∧
      (n = P.B → v = (recovered P c key iv).dropLast.flatten) ∧
      (n = P.B → c.length = P.B → v = [])) ∧
    (∀ f, cbcDecrypt P c key iv = .fail f → f = .invalidInput ∨ f = .invalidPadding)

/-- R107: a decryption that fails with InvalidInput has invoked `D` never; one that fails with InvalidPadding has invoked it on
every block, in order. -/
def Obligations.DecryptFailureTiming : Prop :=
  ∀ (P : Params) (c key iv : Bytes) (f : Failure), iv.length = P.B → cbcDecrypt P c key iv = .fail f →
    (f = .invalidInput ∧ decCalls P c key = []) ∨
    (f = .invalidPadding ∧ 0 < c.length / P.B ∧
      decCalls P c key = (blocks P.B c (c.length / P.B)).map fun blk => ⟨.dec, blk, key⟩)

/-- R112: round trip under PRIM_INV, for every key, IV and message; without it there is an instance where it fails. -/
def Obligations.RoundTrip : Prop :=
  (∀ P : Params, P.PrimInv → ∀ p key iv : Bytes, key.length = P.K → iv.length = P.B →
    cbcDecrypt P (cbcEncrypt P p key iv) key iv = .ok p) ∧
  (∃ (P : Params) (p key iv : Bytes), key.length = P.K ∧ iv.length = P.B ∧
    cbcDecrypt P (cbcEncrypt P p key iv) key iv ≠ .ok p)

/-- R114: two aligned ciphertexts of one length that differ only inside block `i` recover the same blocks before `i` and after
`i + 1`, and block `i + 1` changes by exactly the change of block `i`. -/
def Obligations.CiphertextChangeIsLocal : Prop :=
  ∀ (P : Params) (c c' key iv : Bytes) (m i : Nat), c.length = m * P.B → c'.length = m * P.B → i < m →
    (∀ j, j < m → j ≠ i → slice c (j * P.B) P.B = slice c' (j * P.B) P.B) →
    (∀ j, j < i ∨ i + 1 < j → (recovered P c' key iv)[j]? = (recovered P c key iv)[j]?) ∧
    (i + 1 < m → (recovered P c' key iv)[i + 1]? = some
      (xorBytes ((recovered P c key iv).getD (i + 1) [])
        (xorBytes (slice c (i * P.B) P.B) (slice c' (i * P.B) P.B))))

/-- R115: in the same setting, under PRIM_INV, a changed block recovers differently; for some primitive without it, it need
not. -/
def Obligations.ChangedBlockRecoversDifferently : Prop :=
  (∀ P : Params, P.PrimInv → ∀ (c c' key iv : Bytes) (m i : Nat),
    c.length = m * P.B → c'.length = m * P.B → i < m → key.length = P.K → iv.length = P.B →
    (∀ j, j < m → j ≠ i → slice c (j * P.B) P.B = slice c' (j * P.B) P.B) →
    slice c (i * P.B) P.B ≠ slice c' (i * P.B) P.B →
    (recovered P c' key iv)[i]? ≠ (recovered P c key iv)[i]?) ∧
  (∃ (P : Params) (c c' key iv : Bytes), c.length = P.B ∧ c'.length = P.B ∧ key.length = P.K ∧ iv.length = P.B ∧
    c ≠ c' ∧ (recovered P c' key iv)[0]? = (recovered P c key iv)[0]?)

/-- R117: ciphertext blocks depend on the plaintext up to them only; under PRIM_INV a changed block changes its ciphertext
block. -/
def Obligations.EncryptionPrefixDependence : Prop :=
  (∀ (P : Params) (p p' key iv : Bytes) (t : Nat), t * P.B ≤ p.length → t * P.B ≤ p'.length →
    p.take (t * P.B) = p'.take (t * P.B) →
    (cbcEncrypt P p key iv).take (t * P.B) = (cbcEncrypt P p' key iv).take (t * P.B)) ∧
  (∀ P : Params, P.PrimInv → ∀ (p p' key iv : Bytes) (j : Nat), (j + 1) * P.B ≤ p.length → (j + 1) * P.B ≤ p'.length →
    key.length = P.K → iv.length = P.B → p.take (j * P.B) = p'.take (j * P.B) →
    slice p (j * P.B) P.B ≠ slice p' (j * P.B) P.B →
    slice (cbcEncrypt P p key iv) (j * P.B) P.B ≠ slice (cbcEncrypt P p' key iv) (j * P.B) P.B)

/-- R118: encrypting `p1` and then `p2` with the last ciphertext block as IV is the encryption of `p1` padded followed by `p2`:
the inner padding stays in the message. -/
def Obligations.SplitMessageKeepsInnerPadding : Prop :=
  ∀ (P : Params) (p1 p2 key iv : Bytes),
    cbcEncrypt P p1 key iv ++
        cbcEncrypt P p2 key (slice (cbcEncrypt P p1 key iv) (p1.length / P.B * P.B) P.B) =
      cbcEncrypt P (p1 ++ rep (BitVec.ofNat 8 (P.B - p1.length % P.B)) (P.B - p1.length % P.B) ++ p2) key iv

-- ---------------------------------------------------------------- the commands

/-- R85: PAD of at most one block completes with the padded block or blocks. -/
def Obligations.PadCompletes : Prop :=
  ∀ (s : State) (x : Bytes), s.Holds .inp x → s.inlen = x.length →
    (x.length < s.params.B → ∃ t, exec .pad s = .next t ∧ t.outlen = s.params.B ∧
      s.CompletedWith t (.ok (x ++ rep (BitVec.ofNat 8 (s.params.B - x.length)) (s.params.B - x.length))) [] ∧
      s.NoDraw t) ∧
    (x.length = s.params.B → ∃ t, exec .pad s = .next t ∧ t.outlen = 2 * s.params.B ∧
      s.CompletedWith t (.ok (x ++ rep (BitVec.ofNat 8 s.params.B) s.params.B)) [] ∧ s.NoDraw t)

/-- R86: UNPAD of an aligned operand with a valid tail of `n` bytes completes with the operand less its last `n` bytes. -/
def Obligations.UnpadCompletes : Prop :=
  ∀ (s : State) (x : Bytes) (n : Nat), 1 ≤ n → n ≤ s.params.B →
    s.Holds .inp (x ++ rep (BitVec.ofNat 8 n) n) → s.inlen = x.length + n → s.inlen % s.params.B = 0 →
    ∃ t, exec .unpad s = .next t ∧ s.CompletedWith t (.ok x) [] ∧ s.NoDraw t

/-- R86, R88: UNPAD of an aligned operand with no valid tail fails with InvalidPadding, whatever is wrong with the tail. -/
def Obligations.UnpadRejectsInvalidTail : Prop :=
  ∀ (s : State) (y : Bytes), s.Holds .inp y → s.inlen = y.length → 0 < y.length → y.length % s.params.B = 0 →
    ¬ ValidTail s.params y →
    ∃ t, exec .unpad s = .next t ∧ s.CompletedWith t (.fail .invalidPadding) [] ∧ s.NoDraw t

/-- R93: XOR of two operands of one length completes with their byte-wise exclusive-or, of that length. -/
def Obligations.XorCompletes : Prop :=
  ∀ (s : State) (a b : Bytes), s.Holds .inp a → s.Holds .aux b → s.inlen = a.length → s.auxlen = b.length →
    a.length = b.length →
    ∃ t, exec .xor s = .next t ∧ t.outlen = s.inlen ∧ s.CompletedWith t (.ok (xorBytes a b)) [] ∧ s.NoDraw t ∧
      ∀ i, i < a.length → t.readLoc ⟨.out, i⟩ = some ((a.getD i 0).toNat ^^^ (b.getD i 0).toNat)

/-- R110: CBCENC completes for every operand length, with the ciphertext of rule R101 and one `E` record per block. -/
def Obligations.CbcencCompletes : Prop :=
  ∀ (s : State) (p key iv : Bytes), s.Holds .inp p → s.inlen = p.length → s.Holds .key key → key.length = s.params.K →
    s.Holds .iv iv → iv.length = s.params.B →
    ∃ t, exec .cbcenc s = .next t ∧ t.outlen = (s.inlen / s.params.B + 1) * s.params.B ∧
      s.CompletedWith t (.ok (cbcEncrypt s.params p key iv)) (encCalls s.params p key iv) ∧ s.NoDraw t

/-- R111: CBCDEC of an aligned non-empty operand completes with the decryption of rule R105, success or InvalidPadding, after one
`D` record per block. -/
def Obligations.CbcdecCompletes : Prop :=
  ∀ (s : State) (c key iv : Bytes), s.Holds .inp c → s.inlen = c.length → s.Holds .key key → key.length = s.params.K →
    s.Holds .iv iv → iv.length = s.params.B → 0 < c.length → c.length % s.params.B = 0 →
    ∃ t, exec .cbcdec s = .next t ∧
      s.CompletedWith t (cbcDecrypt s.params c key iv)
        ((blocks s.params.B c (c.length / s.params.B)).map fun blk => ⟨.dec, blk, key⟩) ∧ s.NoDraw t

/-- R132, R152: a command whose length check fails completes with its failure, without reading an operand (written or not) and
without invoking the primitive. -/
def Obligations.LengthChecksFailFast : Prop :=
  ∀ s : State,
    (s.params.B < s.inlen → ∃ t, exec .pad s = .next t ∧
      s.CompletedWith t (.fail .invalidInput) [] ∧ s.NoDraw t) ∧
    (s.inlen = 0 ∨ s.inlen % s.params.B ≠ 0 → ∃ t, exec .unpad s = .next t ∧
      s.CompletedWith t (.fail .invalidInput) [] ∧ s.NoDraw t) ∧
    (s.inlen ≠ s.auxlen → ∃ t, exec .xor s = .next t ∧
      s.CompletedWith t (.fail .lengthMismatch) [] ∧ s.NoDraw t) ∧
    (s.inlen = 0 ∨ s.inlen % s.params.B ≠ 0 → ∃ t, exec .cbcdec s = .next t ∧
      s.CompletedWith t (.fail .invalidInput) [] ∧ s.NoDraw t)

/-- R30 and the frame of every command: from every state it completes; of the whole port only STATUS, OUTLEN and OUT may read
differently; every stored byte, every input and every earlier reply is as it was; OUT reads 0 from OUTLEN on. MODEL'S CHOICE in
'every state': that a command over an unwritten byte completes too, where R152 and U2 say that a model refuses it, is log entry 3;
that `exec` completes in a state with BUSY = 0 is log entry 20. -/
def Obligations.EveryCommandCompletesAndKeepsItsFrame : Prop :=
  ∀ (i : Instr) (s : State), ∃ t, exec i s = .next t ∧
    (∃ r calls, s.CompletedWith t r calls) ∧
    (∀ sp j, (t.cells sp).read j = (s.cells sp).read j) ∧
    (∀ l : Loc, l.space = .reg → l.index < 4 → l ≠ .status → t.readLoc l = s.readLoc l) ∧
    (∀ l : Loc, l.space ≠ .out → l.space ≠ .reg → t.readLoc l = s.readLoc l) ∧
    (∀ j, t.outlen ≤ j → t.readLoc ⟨.out, j⟩ = some 0)

/-- R130: which command reports which code, and exactly when. `inOperand`, `keyOperand`, `ivOperand` are the operands the command
reads. -/
def Obligations.FailureCodeTable : Prop :=
  ∀ (i : Instr) (s t : State), exec i s = .next t →
    (t.err = 1#2 ↔ i = .xor ∧ s.inlen ≠ s.auxlen) ∧
    (t.err = 2#2 ↔ (i = .pad ∧ s.params.B < s.inlen) ∨
      ((i = .unpad ∨ i = .cbcdec) ∧ (s.inlen = 0 ∨ s.inlen % s.params.B ≠ 0))) ∧
    (t.err = 3#2 ↔ 0 < s.inlen ∧ s.inlen % s.params.B = 0 ∧
      ((i = .unpad ∧ ¬ ValidTail s.params s.inOperand) ∨
       (i = .cbcdec ∧ ∃ last, (recovered s.params s.inOperand (s.keyOperand s.params)
          (s.ivOperand s.params)).getLast? = some last ∧ ¬ ValidTail s.params last)))

/-- R134, R137, R138: a command that reports a failure leaves its code and nothing else: the next state is the old one with OUT
empty, STATUS showing DONE and the code, and PEND and CHAIN without value; the operands cannot be told from it. (The model's own
trace and free-value counter are not the instance's state.) -/
def Obligations.FailureLeavesOnlyItsCode : Prop :=
  ∀ (i : Instr) (s t : State), exec i s = .next t → t.err ≠ 0#2 →
    ∃ f : Failure, t.err = codeOf f ∧
      t = { s with out := [], status := statusWord false true (codeOf f), chain := none, pend := none,
                   trace := t.trace, draws := t.draws, unspecified := t.unspecified } ∧
      (f ≠ .invalidPadding → t.trace = s.trace ∧ t.draws = s.draws ∧ t.unspecified = s.unspecified)

/-- R109: the trace of every command and outcome; every Block fed to the primitive has `B` bytes and every record of a command
carries the one key. -/
def Obligations.TraceTable : Prop :=
  ∀ (i : Instr) (s t : State), exec i s = .next t → ∃ calls, t.trace = s.trace ++ calls ∧
    (i = .pad ∨ i = .unpad ∨ i = .xor → calls = []) ∧
    (i = .cbcenc → calls.length = s.inlen / s.params.B + 1 ∧ t.err = 0#2 ∧
      calls = encCalls s.params s.inOperand (s.keyOperand s.params) (s.ivOperand s.params) ∧
      ∀ c ∈ calls, c.dir = .enc) ∧
    (i = .cbcdec → (t.err = 2#2 → calls = []) ∧
      (t.err ≠ 2#2 → calls.length = s.inlen / s.params.B ∧
        ∀ j, j < s.inlen / s.params.B → calls[j]? = some
          ⟨.dec, slice s.inOperand (j * s.params.B) s.params.B, s.keyOperand s.params⟩)) ∧
    (∀ c ∈ calls, c.block.length = s.params.B ∧ c.key = s.keyOperand s.params)

/-- R118, R139, R27: no state is carried from one command to the next. Two states that agree on the bytes a command reads (its
read set written) give the same output, status and primitive invocations, whatever else they hold: earlier results, CHAIN, PEND,
bytes beyond the lengths, and for PAD, UNPAD and XOR the whole of KEY and IV. -/
def Obligations.ResultDependsOnOperandsOnly : Prop :=
  ∀ (s s' t t' : State) (x y key iv : Bytes),
    s.Holds .inp x → s'.Holds .inp x → s.inlen = x.length → s'.inlen = x.length →
    (∀ i, i = .pad ∨ i = .unpad → s'.params = s.params → exec i s = .next t → exec i s' = .next t' →
      t.out = t'.out ∧ t.status = t'.status) ∧
    (s.Holds .aux y → s'.Holds .aux y → s.auxlen = y.length → s'.auxlen = y.length →
      exec .xor s = .next t → exec .xor s' = .next t' → t.out = t'.out ∧ t.status = t'.status) ∧
    (∀ i, i = .cbcenc ∨ i = .cbcdec → s'.params = s.params → key.length = s.params.K → iv.length = s.params.B →
      s.Holds .key key → s'.Holds .key key → s.Holds .iv iv → s'.Holds .iv iv →
      exec i s = .next t → exec i s' = .next t' →
      t.out = t'.out ∧ t.status = t'.status ∧
        t.trace.drop s.trace.length = t'.trace.drop s'.trace.length)

/-- MODEL'S CHOICE (log entries 3, 4, 5; R152 calls the result unspecified): a command whose length check passes and whose read
set holds an unwritten byte still completes, keeps its frame, and the run is marked and one free value spent. -/
def Obligations.UnwrittenOperandsMarkTheRun : Prop :=
  ∀ s : State,
    (s.inlen ≤ s.params.B → s.inWritten = false → ∃ t, exec .pad s = .next t ∧ t.unspecified = true ∧
      t.draws = s.draws + 1 ∧ t.err = 0#2 ∧ s.SameOperands t) ∧
    (0 < s.inlen → s.inlen % s.params.B = 0 → s.inWritten = false → ∃ t, exec .unpad s = .next t ∧
      t.unspecified = true ∧ t.draws = s.draws + 1 ∧ (t.err = 0#2 ∨ t.err = 3#2) ∧ s.SameOperands t) ∧
    (s.inlen = s.auxlen → s.xorWritten = false → ∃ t, exec .xor s = .next t ∧ t.unspecified = true ∧
      t.draws = s.draws + 1 ∧ t.err = 0#2 ∧ s.SameOperands t) ∧
    (s.cbcWritten s.params = false → ∃ t, exec .cbcenc s = .next t ∧ t.unspecified = true ∧
      t.draws = s.draws + 1 ∧ t.err = 0#2 ∧ s.SameOperands t) ∧
    (0 < s.inlen → s.inlen % s.params.B = 0 → s.cbcWritten s.params = false →
      ∃ t, exec .cbcdec s = .next t ∧ t.unspecified = true ∧ t.draws = s.draws + 1 ∧
        (t.err = 0#2 ∨ t.err = 3#2) ∧ s.SameOperands t)

-- ---------------------------------------------------------------- the port

/-- R29: a CMD write that is not held issues the command, for every 8-bit word, and changes nothing else. With BUSY = 1 it does not
issue (R47: it is held); that the step then is the ENGINE's is the MODEL'S CHOICE (log entry 6). -/
def Obligations.CommandIssue : Prop :=
  ∀ (s : State) (w : BitVec 8) (es : List Event), s.events = .access (.wr .cmd w.toNat) :: es →
    (s.busy = false → ∃ t, step s = .next t ∧
      t = { s with pend := some w, status := 0x01#8, out := [], events := es } ∧
      t.busy = true ∧ t.isDone = false ∧ t.err = 0#2 ∧ t.outlen = 0) ∧
    (s.busy = true → step s = engineStep s)

/-- R44: what a read of each location returns, where the byte is written; nothing but the list of replies changes. -/
def Obligations.ReadsReturnTheStoredValue : Prop :=
  ∀ (s : State) (l : Loc) (es : List Event) (v : Nat), l.wf s.params = true → s.events = .access (.rd l) :: es →
    s.busy = false ∨ l = .status →
    (l = .cmd ∧ v = 0 ∨ l = .status ∧ v = s.status.toNat ∨ l = .inlen ∧ v = s.inlen ∨ l = .auxlen ∧ v = s.auxlen ∨
      l = .outlen ∧ v = s.outlen ∨ (l.space = .out ∧ v = if l.index < s.outlen then (s.out.getD l.index 0).toNat else 0) ∨
      (l.space ≠ .reg ∧ l.space ≠ .out ∧ (s.cells l.space).read l.index = some (BitVec.ofNat 8 v) ∧ v < 256)) →
    step s = .next { s with events := es, returned := s.returned ++ [⟨l, v⟩] }

/-- R151 (with the model's free value, log entry 3): a read of an unwritten byte completes, returns some 8-bit value, and changes
nothing of the instance. -/
def Obligations.ReadOfUnwrittenByteCompletes : Prop :=
  ∀ (s : State) (l : Loc) (es : List Event), l.wf s.params = true → s.events = .access (.rd l) :: es →
    s.busy = false → l.space ≠ .reg → l.space ≠ .out → (s.cells l.space).read l.index = none →
    ∃ v, v < 256 ∧ step s = .next { s with events := es, returned := s.returned ++ [⟨l, v⟩], draws := s.draws + 1 }

/-- R43, R45: a write that issues no command gives its location the value written, if it is writable, and no other location
reads differently. -/
def Obligations.WriteChangesItsLocationOnly : Prop :=
  ∀ (s : State) (l : Loc) (v : Nat) (es : List Event), (Access.wr l v).wf s.params = true → l ≠ .cmd →
    s.busy = false → s.events = .access (.wr l v) :: es →
    ∃ t, step s = .next t ∧ t.events = es ∧
      (l ≠ .status → l ≠ .outlen → l.space ≠ .out → t.readLoc l = some v) ∧
      (∀ l' : Loc, l' ≠ l → t.readLoc l' = s.readLoc l') ∧
      t.pend = s.pend ∧ t.chain = s.chain ∧ t.returned = s.returned ∧ t.trace = s.trace ∧ s.NoDraw t

/-- R46: a write to STATUS, OUTLEN or a byte of OUT completes and changes nothing; a read of CMD completes and returns 0. -/
def Obligations.ReadOnlyAndWriteOnlyLocations : Prop :=
  ∀ (s : State) (es : List Event), s.busy = false →
    (∀ (l : Loc) (v : Nat), (Access.wr l v).wf s.params = true → l = .status ∨ l = .outlen ∨ l.space = .out →
      s.events = .access (.wr l v) :: es → step s = .next { s with events := es }) ∧
    (s.events = .access (.rd .cmd) :: es →
      step s = .next { s with events := es, returned := s.returned ++ [⟨.cmd, 0⟩] })

/-- R52: every access but the CMD write is idempotent: made twice at once, it leaves the state of one, and a read of a stored
value returns the same both times. -/
def Obligations.AccessesAreIdempotent : Prop :=
  ∀ (s : State) (es : List Event),
    (∀ (l : Loc) (v : Nat), l ≠ .cmd → (Access.wr l v).wf s.params = true → s.busy = false →
      s.events = .access (.wr l v) :: .access (.wr l v) :: es →
      ∃ t u, step s = .next t ∧ step t = .next u ∧ u = { t with events := es }) ∧
    (∀ l : Loc, l.wf s.params = true → s.busy = false → (s.readLoc l).isSome = true →
      s.events = .access (.rd l) :: .access (.rd l) :: es →
      ∃ t u v, step s = .next t ∧ step t = .next u ∧ u = { t with events := es, returned := t.returned ++ [⟨l, v⟩] } ∧
        t.returned = s.returned ++ [⟨l, v⟩])

/-- R47: while a command is in progress, a STATUS read completes at once and returns 0x01; every other access waits while the
command completes, and is then still the next input. MODEL'S CHOICE: that the ENGINE is the agent that then moves (log entry 6). -/
def Obligations.AccessesAreHeldWhileBusy : Prop :=
  ∀ (s : State) (a : Access) (es : List Event), s.Inv s.params → s.busy = true → s.events = .access a :: es →
    (a = .rd .status → step s = .next { s with events := es, returned := s.returned ++ [⟨.status, 1⟩] }) ∧
    (a ≠ .rd .status → ∃ t r calls, step s = .next t ∧ engineStep s = .next t ∧ s.CompletedWith t r calls ∧
      t.events = .access a :: es ∧ t.busy = false)

/-- R55 (b): a write made after the CMD write, to whatever location, is not seen by the command: the held write takes effect after
completion, on the state `t` the command has left. A byte of KEY, IV, IN or AUX, INLEN and AUXLEN take the value; a second CMD
write issues the next command; STATUS, OUTLEN and OUT ignore the write. MODEL'S CHOICE: that the ENGINE moves while the write is
held (log entry 6). -/
def Obligations.HeldWriteTakesEffectAfterCompletion : Prop :=
  ∀ (s : State) (l : Loc) (v : Nat) (es : List Event), s.Inv s.params → s.busy = true →
    (Access.wr l v).wf s.params = true → s.events = .access (.wr l v) :: es →
    ∃ t r calls u, engineStep s = .next t ∧ s.CompletedWith t r calls ∧
      Host.Core.run Sys2Proof.core 2 s = .next u ∧
      (l.space = .key → u = { t with key := t.key.write l.index (BitVec.ofNat 8 v), events := es }) ∧
      (l.space = .iv → u = { t with iv := t.iv.write l.index (BitVec.ofNat 8 v), events := es }) ∧
      (l.space = .inp → u = { t with inp := t.inp.write l.index (BitVec.ofNat 8 v), events := es }) ∧
      (l.space = .aux → u = { t with aux := t.aux.write l.index (BitVec.ofNat 8 v), events := es }) ∧
      (l = .inlen → u = { t with inlen := v, events := es }) ∧
      (l = .auxlen → u = { t with auxlen := v, events := es }) ∧
      (l = .cmd → u = { t with pend := some (BitVec.ofNat 8 v), status := 0x01#8, out := [], events := es }) ∧
      (l = .status ∨ l = .outlen ∨ l.space = .out → u = { t with events := es }) ∧
      (l ≠ .cmd → l ≠ .status → l ≠ .outlen → l.space ≠ .out → u.readLoc l = some v)

/-- MODEL'S CHOICE (log entry 10; R42, R45 give these no meaning): an access to no location and a value wider than its location
stop by name. -/
def Obligations.AccessToNoLocationStops : Prop :=
  ∀ (s : State) (l : Loc) (v : Nat) (es : List Event), s.busy = false →
    (l.wf s.params = false → s.events = .access (.rd l) :: es → step s = .fault .noSuchLocation) ∧
    (l.wf s.params = false → s.events = .access (.wr l v) :: es → step s = .fault .noSuchLocation) ∧
    (l.wf s.params = true → l.maxValue s.params < v → s.events = .access (.wr l v) :: es →
      step s = .fault .valueTooWide)

/-- R68: the port operations of `ldin s`, made on an idle instance, leave the bytes of `s` as the operand and its length in INLEN,
and touch nothing else. -/
def Obligations.LdinLoadsTheOperand : Prop :=
  ∀ (s : State) (x : Bytes) (ops : List Access) (es : List Event), s.busy = false →
    Script.ldin s.params x = some ops → s.events = ops.map Event.access ++ es →
    ops.length = x.length + 1 ∧
    ∃ t, Host.Core.run Sys2Proof.core ops.length s = .next t ∧ t.Holds .inp x ∧ t.inlen = x.length ∧
      t = { s with inp := t.inp, inlen := x.length, events := es } ∧
      ∀ j, x.length ≤ j → t.inp.read j = s.inp.read j

-- ---------------------------------------------------------------- the machine

/-- R38: the state after reset. -/
def Obligations.ResetValues : Prop :=
  State.reset.status = 0x00#8 ∧ State.reset.inlen = 0 ∧ State.reset.auxlen = 0 ∧ State.reset.outlen = 0 ∧
  State.reset.pend = none ∧ State.reset.chain = none ∧
  (∀ sp i, (State.reset.cells sp).read i = none) ∧ (∀ i, State.reset.readLoc ⟨.out, i⟩ = some 0)

/-- The invariants of R37 hold after reset, in every copy. -/
def Obligations.ResetMeetsInvariants : Prop :=
  ∀ c : Nat, ({ State.reset with copy := c } : State).Inv (Config.params c) ∧
    ({ State.reset with copy := c } : State).TraceInv (Config.params c)

/-- R37: every step from a state that meets the invariants leads to one that does. -/
def Obligations.StepKeepsInvariants : Prop :=
  ∀ s t : State, s.Inv s.params → step s = .next t → t.Inv t.params

/-- Every step keeps it so that every Block ever fed to the Block Primitive had exactly `B` bytes and every key `K` (R109). -/
def Obligations.StepKeepsPrimitiveArgumentLengths : Prop :=
  ∀ s t : State, s.TraceInv s.params → step s = .next t → t.TraceInv t.params

/-- R37 (d): an instance is idle without a result only from reset until the first command issue: no step but RESET leads there,
and only a CMD write or nothing leads away. -/
def Obligations.IdleWithoutResultOnlyBeforeFirstCommand : Prop :=
  ∀ s t : State, s.Inv s.params → step s = .next t →
    (s.busy = true ∨ s.isDone = true → t.busy = true ∨ t.isDone = true ∨ s.events.head? = some .reset) ∧
    (s.busy = false → s.isDone = false → t.busy = true ∨ t.isDone = true →
      ∃ w, s.events.head? = some (.access (.wr .cmd w)) ∧ t.busy = true)

/-- A step with a word latched and the ENGINE to move is `exec` of the decoded command (R30, R31), and for a malformed word the
completion with InvalidInput (R64). MODEL'S CHOICE (log entry 6): the ENGINE moves on its own turn, with no input left, and while
an access is held. -/
def Obligations.StepRunsTheDecodedCommand : Prop :=
  ∀ (s : State) (w : BitVec 8), s.busy = true → s.pend = some w →
    (∀ i : Instr, decode w = .command i →
      (∀ es, s.events = .engine :: es → step s = exec i { s with events := es }) ∧
      (s.events = [] → step s = exec i s) ∧
      (∀ a es, s.events = .access a :: es → a ≠ .rd .status → step s = exec i s)) ∧
    (∀ m : Malformed, decode w = .malformed m →
      (∀ es, s.events = .engine :: es → ∃ t, step s = .next t ∧
        ({ s with events := es } : State).CompletedWith t (.fail .invalidInput) [] ∧ s.NoDraw t) ∧
      (s.events = [] → ∃ t, step s = .next t ∧ s.CompletedWith t (.fail .invalidInput) [] ∧ s.NoDraw t) ∧
      (∀ a es, s.events = .access a :: es → a ≠ .rd .status →
        ∃ t, step s = .next t ∧ s.CompletedWith t (.fail .invalidInput) [] ∧ s.NoDraw t))

/-- R64: a malformed word (`RSV` not zero, or `OP` one of 0, 6, 7) is issued and its completion, whatever the inputs that wait, is
InvalidInput, with no invocation and no operand read; 251 words are malformed, 248 of them by `RSV`. (The steps that are the
ENGINE's: `StepRunsTheDecodedCommand`.) -/
def Obligations.MalformedWordFails : Prop :=
  (∀ (s : State) (w : BitVec 8), s.pend = some w →
    fieldRSV w ≠ 0#5 ∨ fieldOP w = 0#3 ∨ fieldOP w = 6#3 ∨ fieldOP w = 7#3 →
    ∃ t, engineStep s = .next t ∧ s.CompletedWith t (.fail .invalidInput) [] ∧ s.NoDraw t) ∧
  (∀ (s : State) (w : BitVec 8) (es : List Event), s.busy = false → s.events = .access (.wr .cmd w.toNat) :: es →
    ∃ t, step s = .next t ∧ t.pend = some w ∧ t.busy = true) ∧
  ((List.range 256).filter fun n => (decodeTableWord 8 n).isNone).length = 251 ∧
  ((List.range 256).filter fun n => decide (fieldRSV (BitVec.ofNat 8 n) ≠ 0#5)).length = 248

/-- R25, R37: of the 256 values of STATUS only six occur (the table of spec/95_test_vectors.md section 7.1). -/
def Obligations.StatusTakesSixValues : Prop :=
  ∀ s : State, s.Inv s.params →
    s.status = 0x00#8 ∨ s.status = 0x01#8 ∨ s.status = 0x02#8 ∨ s.status = 0x06#8 ∨ s.status = 0x0a#8 ∨ s.status = 0x0e#8

/-- R164: a state with BUSY = 1 and no other step to take completes its command, whatever the word. -/
def Obligations.BusyInstanceCompletes : Prop :=
  ∀ s : State, s.Inv s.params → s.busy = true →
    (s.events = [] ∨ ∃ es, s.events = .engine :: es) →
    ∃ t, step s = .next t ∧ t.busy = false ∧ t.isDone = true ∧ t.Inv t.params

/-- R20, R21, R27, R33, R34, R41: KEY, IV, IN, AUX, INLEN and AUXLEN change only by a HOST write to that very place, or by
RESET. -/
def Obligations.OperandsChangeOnlyByHostOrReset : Prop :=
  ∀ s t : State, step s = .next t → s.events.head? = some .reset ∨
    ((∀ sp j, (t.cells sp).read j ≠ (s.cells sp).read j → ∃ v, s.events.head? = some (.access (.wr ⟨sp, j⟩ v)) ∧
        s.busy = false ∧ (t.cells sp).read j = some (BitVec.ofNat 8 v)) ∧
      (t.inlen ≠ s.inlen → s.events.head? = some (.access (.wr .inlen t.inlen)) ∧ s.busy = false) ∧
      (t.auxlen ≠ s.auxlen → s.events.head? = some (.access (.wr .auxlen t.auxlen)) ∧ s.busy = false))

/-- R139: the failure code and the result stay until the next CMD write, completion or RESET: every other step leaves STATUS and
OUT as they are. -/
def Obligations.ResultStaysUntilNextCommand : Prop :=
  ∀ s t : State, s.busy = false → step s = .next t →
    s.events.head? = some .reset ∨ (∃ w, s.events.head? = some (.access (.wr .cmd w))) ∨
    (t.status = s.status ∧ t.out = s.out ∧ t.pend = s.pend ∧ t.chain = s.chain ∧ t.trace = s.trace)

/-- R150, R153: RESET puts every piece of the instance's state at its reset value from any state; a command in progress, whatever
its word, gives no output and no code, and of the primitive invocations its completion would have made only a prefix has been made
(of a malformed word's, none). -/
def Obligations.ResetEvent : Prop :=
  ∀ (s : State) (es : List Event), s.events = .reset :: es → ∃ t, step s = .next t ∧
    t = { State.reset with copy := s.copy, events := es, returned := s.returned, trace := t.trace, draws := t.draws } ∧
    s.trace <+: t.trace ∧ (s.busy = false → t.trace = s.trace) ∧
    (s.busy = true → ∀ u, engineStep s = .next u → t.trace <+: u.trace)

/-- R144: a step of one instance leaves every other instance as it was, and does to its own what it would do alone; no instance
becomes another copy of the model. -/
def Obligations.InstancesShareNothing : Prop :=
  ∀ (ss ts : List State) (i : Nat), stepInstance ss i = .next ts →
    ts.length = ss.length ∧ (∀ j, j ≠ i → ts[j]? = ss[j]?) ∧ ts.map State.copy = ss.map State.copy ∧
    (∀ s, ss[i]? = some s → ∃ t, step s = .next t ∧ ts[i]? = some t)

/-- R144 with the MODEL'S CHOICE of log entry 18: `n` instances after reset are distinct copies, each with its own parameters and
free values, and stay so whatever instance steps. -/
def Obligations.InstancesStayDistinctCopies : Prop :=
  (∀ n : Nat, (instancesAtReset n).length = n ∧ distinctCopies (instancesAtReset n) ∧
    ∀ c, c < n → ∃ s, (instancesAtReset n)[c]? = some s ∧ s.params = Config.params c ∧
      s = { State.reset with copy := c }) ∧
  (∀ (ss ts : List State) (i : Nat), distinctCopies ss → stepInstance ss i = .next ts → distinctCopies ts)
end

