-- ==== Sys2Proof/Laws/Bytes.lean ====
section
/-! SUPPORT. The notation on byte sequences: lengths and elements of slices, xor lane by lane, and the blocks of a message
(spec/42_cbc.md R100). -/

namespace Sys2Proof.Machine

@[simp] theorem rep_length (v : Byte) (n : Nat) : (rep v n).length = n := by simp [rep]

theorem slice_length (a : Bytes) (i n : Nat) : (slice a i n).length = min n (a.length - i) := by simp [slice]

/-- A slice that lies inside the sequence has the length asked for. -/
theorem slice_length_of_le {a : Bytes} {i n : Nat} (h : i + n ≤ a.length) : (slice a i n).length = n := by
  rw [slice_length]; omega

theorem slice_zero_length (a : Bytes) : slice a 0 a.length = a := by simp [slice]

/-- Byte `j` of a slice is byte `i + j` of the sequence. -/
theorem slice_getElem? {a : Bytes} {i n j : Nat} (h : j < n) : (slice a i n)[j]? = a[i + j]? := by
  simp [slice, h]

@[simp] theorem xorBytes_length (a b : Bytes) : (xorBytes a b).length = min a.length b.length := by simp [xorBytes]

theorem xorBytes_nil_left (b : Bytes) : xorBytes [] b = [] := rfl

theorem xorBytes_cons (x y : Byte) (a b : Bytes) : xorBytes (x :: a) (y :: b) = (x ^^^ y) :: xorBytes a b := rfl

/-- Each byte position is an independent lane (spec/41_xor.md R90). -/
theorem xorBytes_getElem {a b : Bytes} {i : Nat} (h : i < (xorBytes a b).length) :
    (xorBytes a b)[i] = a[i]'(by simp at h; omega) ^^^ b[i]'(by simp at h; omega) := by
  simp [xorBytes]

@[simp] theorem blocks_length (B : Nat) (a : Bytes) (m : Nat) : (blocks B a m).length = m := by simp [blocks]

theorem blocks_getElem? {B : Nat} {a : Bytes} {m j : Nat} (h : j < m) :
    (blocks B a m)[j]? = some (slice a (j * B) B) := by
  simp [blocks, h]

/-- One more block: the blocks before it, and the next slice. -/
theorem blocks_succ (B : Nat) (a : Bytes) (m : Nat) : blocks B a (m + 1) = blocks B a m ++ [slice a (m * B) B] := by
  simp [blocks, List.range_succ]

/-- Every block of the part that is a whole number of blocks has `B` bytes. -/
theorem length_of_mem_blocks {B : Nat} {a : Bytes} {m : Nat} (h : m * B ≤ a.length) {x : Bytes} (hx : x ∈ blocks B a m) :
    x.length = B := by
  simp only [blocks, List.mem_map, List.mem_range] at hx
  obtain ⟨j, hj, rfl⟩ := hx
  apply slice_length_of_le
  have : (j + 1) * B ≤ m * B := Nat.mul_le_mul_right B hj
  rw [Nat.add_mul, Nat.one_mul] at this
  omega

/-- The blocks in order are the first `m * B` bytes. -/
theorem flatten_blocks {B : Nat} {a : Bytes} {m : Nat} (h : m * B ≤ a.length) : (blocks B a m).flatten = a.take (m * B) := by
  induction m with
  | zero => simp [blocks]
  | succ m ih =>
    have h1 : m * B + B ≤ a.length := by rw [Nat.add_mul, Nat.one_mul] at h; exact h
    rw [blocks_succ, List.flatten_append, ih (by omega), Nat.add_mul, Nat.one_mul, List.take_add]
    simp [slice]

/-- The concatenation of blocks of one length. -/
theorem length_flatten_of_forall {n : Nat} {l : List Bytes} (h : ∀ x ∈ l, x.length = n) : l.flatten.length = l.length * n := by
  induction l with
  | nil => simp
  | cons a l ih =>
    rw [List.flatten_cons, List.length_append, ih (fun x hx => h x (List.mem_cons_of_mem _ hx)), h a List.mem_cons_self,
      List.length_cons, Nat.add_mul, Nat.one_mul, Nat.add_comm]

theorem finalChunk_length (B : Nat) (p : Bytes) : (finalChunk B p).length = p.length % B := by
  have := Nat.div_add_mod p.length B
  rw [Nat.mul_comm] at this
  apply slice_length_of_le; omega

end Sys2Proof.Machine
end

