-- ==== Sys2Proof/Laws/Config.lean ====
section
/-! SUPPORT. The legal ranges of the parameters (spec/00_scope.md R4 to R6) and the length of what the primitives answer
(R7). -/

namespace Sys2Proof

theorem Params.B_pos (P : Params) : 1 ≤ P.B := by unfold Params.B; omega
theorem Params.B_le (P : Params) : P.B ≤ 255 := by unfold Params.B; have := P.blockSizeLess1.isLt; omega
theorem Params.K_pos (P : Params) : 1 ≤ P.K := by unfold Params.K; omega
theorem Params.LENW_pos (P : Params) : 1 ≤ P.LENW := by unfold Params.LENW; omega

theorem Params.NMAX_pos (P : Params) : 1 ≤ P.NMAX := by
  have h : 2 ^ 1 ≤ 2 ^ P.LENW := Nat.pow_le_pow_right (by decide) P.LENW_pos
  unfold Params.NMAX; omega

/-- Every input fits in the output buffer with room to spare (R6: `NMAX < OUTCAP`). -/
theorem Params.NMAX_lt_OUTCAP (P : Params) : P.NMAX < P.OUTCAP := by
  unfold Params.OUTCAP
  rw [Nat.add_mul, Nat.one_mul]
  have := Nat.div_add_mod P.NMAX P.B
  have := Nat.mod_lt P.NMAX P.B_pos
  rw [Nat.mul_comm]
  omega

theorem Params.B_le_OUTCAP (P : Params) : P.B ≤ P.OUTCAP := by
  unfold Params.OUTCAP; exact Nat.le_mul_of_pos_left _ (Nat.succ_pos _)

@[simp] theorem Params.E_length (P : Params) (x k : Bytes) : (P.E x k).length = P.B := by simp [Params.E]
@[simp] theorem Params.D_length (P : Params) (x k : Bytes) : (P.D x k).length = P.B := by simp [Params.D]

/-- The block size fits in one byte (R4). -/
@[simp] theorem Params.toNat_ofNat_B (P : Params) : (BitVec.ofNat 8 P.B).toNat = P.B := by
  have := P.B_le; simp [BitVec.toNat_ofNat]; omega

/-- A pad count fits in one byte (spec/40_padding.md R80). -/
theorem toNat_ofNat_of_le {P : Params} {n : Nat} (h : n ≤ P.B) : (BitVec.ofNat 8 n).toNat = n := by
  have := P.B_le; simp [BitVec.toNat_ofNat]; omega

end Sys2Proof
end

