-- ==== Sys2Proof/Laws/Codec.lean ====
section
/-! SUPPORT. The codec's clauses, one lemma each (spec/40_padding.md R80, R82), so that no later proof unfolds `pad` or
`unpad`. -/

namespace Sys2Proof.Machine

theorem pad_of_gt {P : Params} {x : Bytes} (h : P.B < x.length) : pad P x = .fail .invalidInput := by simp [pad, h]

theorem pad_of_eq {P : Params} {x : Bytes} (h : x.length = P.B) : pad P x = .ok (x ++ rep (BitVec.ofNat 8 P.B) P.B) := by
  simp [pad, h]

theorem pad_of_lt {P : Params} {x : Bytes} (h : x.length < P.B) :
    pad P x = .ok (x ++ rep (BitVec.ofNat 8 (P.B - x.length)) (P.B - x.length)) := by
  have h1 : ¬ P.B < x.length := by omega
  have h2 : x.length ≠ P.B := by omega
  simp [pad, h1, h2]

theorem unpad_of_misaligned {P : Params} {y : Bytes} (h : y.length = 0 ∨ y.length % P.B ≠ 0) :
    unpad P y = .fail .invalidInput := by
  simp only [unpad]; rw [if_pos h]

/-- `unpad` of an aligned operand never raises `InvalidInput`. -/
theorem unpad_ne_invalidInput {P : Params} {y : Bytes} (h0 : y.length ≠ 0) (hm : y.length % P.B = 0) :
    unpad P y ≠ .fail .invalidInput := by
  simp only [unpad]
  rw [if_neg (by simp [h0, hm])]
  split
  · simp
  · split <;> simp

/-- Whatever `unpad` answers, it is no longer than its operand. -/
theorem unpad_output_length (P : Params) (y : Bytes) : (outputOf (unpad P y)).length ≤ y.length := by
  simp only [unpad]
  split
  · simp [outputOf]
  · split
    · simp [outputOf]
    · split <;> simp [outputOf, slice]

end Sys2Proof.Machine
end

