-- ==== Sys2Proof/Laws/Operands.lean ====
section
/-! SUPPORT. What the operand reads give (spec/20_memory.md R58): their lengths, and the stored bytes where the read set is
written (spec/70_reset_and_hazards.md R152). -/

namespace Sys2Proof.Machine

@[simp] theorem State.memRead_length (s : State) (sp : Space) (i n : Nat) : (s.memRead sp i n).length = n := by
  simp [State.memRead]

@[simp] theorem State.inOperand_length (s : State) : s.inOperand.length = s.inlen := by simp [State.inOperand]
@[simp] theorem State.auxOperand_length (s : State) : s.auxOperand.length = s.auxlen := by simp [State.auxOperand]
@[simp] theorem State.keyOperand_length (P : Params) (s : State) : (s.keyOperand P).length = P.K := by
  simp [State.keyOperand]
@[simp] theorem State.ivOperand_length (P : Params) (s : State) : (s.ivOperand P).length = P.B := by
  simp [State.ivOperand]

/-- A space that holds the bytes `x` reads as `x`. -/
theorem State.Holds.memRead {s : State} {sp : Space} {x : Bytes} (h : s.Holds sp x) : s.memRead sp 0 x.length = x := by
  apply List.ext_getElem? fun i => ?_
  by_cases hi : i < x.length
  · have hx : (s.cells sp).read i = some x[i] := by rw [h i hi, List.getElem?_eq_getElem hi]
    simp [State.memRead, State.byteAt, hi, hx]
  · simp [State.memRead, hi]

/-- A space that holds the bytes `x` is written as far as `x` goes. -/
theorem State.Holds.isWritten {s : State} {sp : Space} {x : Bytes} (h : s.Holds sp x) : s.isWritten sp x.length = true := by
  simp only [State.isWritten, List.all_eq_true, List.mem_range]
  intro i hi
  rw [h i hi, List.getElem?_eq_getElem hi]; rfl

theorem State.Holds.inOperand {s : State} {x : Bytes} (h : s.Holds .inp x) (hl : s.inlen = x.length) : s.inOperand = x := by
  rw [State.inOperand, hl, h.memRead]

theorem State.Holds.auxOperand {s : State} {x : Bytes} (h : s.Holds .aux x) (hl : s.auxlen = x.length) :
    s.auxOperand = x := by
  rw [State.auxOperand, hl, h.memRead]

theorem State.Holds.keyOperand {P : Params} {s : State} {k : Bytes} (h : s.Holds .key k) (hl : k.length = P.K) :
    s.keyOperand P = k := by
  rw [State.keyOperand, ← hl, h.memRead]

theorem State.Holds.ivOperand {P : Params} {s : State} {v : Bytes} (h : s.Holds .iv v) (hl : v.length = P.B) :
    s.ivOperand P = v := by
  rw [State.ivOperand, ← hl, h.memRead]

end Sys2Proof.Machine
end

