-- ==== Sys2Proof/Laws/Cbc.lean ====
section
/-! SUPPORT. The two folds of the CBC Engine (spec/42_cbc.md R101, R105): their lengths and their behaviour on a
concatenation. -/

namespace Sys2Proof.Machine

@[simp] theorem encFold_nil (P : Params) (key chain : Bytes) : encFold P key chain [] = [] := rfl

theorem encFold_cons (P : Params) (key chain X : Bytes) (Xs : List Bytes) :
    encFold P key chain (X :: Xs) =
      (xorBytes chain X, P.E (xorBytes chain X) key) :: encFold P key (P.E (xorBytes chain X) key) Xs := rfl

@[simp] theorem encFold_length (P : Params) (key chain : Bytes) (Xs : List Bytes) :
    (encFold P key chain Xs).length = Xs.length := by
  induction Xs generalizing chain with
  | nil => rfl
  | cons X Xs ih => simp [encFold_cons, ih]

/-- Every ciphertext block has `B` bytes. -/
theorem length_of_mem_encFold {P : Params} {key chain : Bytes} {Xs : List Bytes} {r : Bytes × Bytes}
    (h : r ∈ encFold P key chain Xs) : r.2.length = P.B := by
  induction Xs generalizing chain with
  | nil => cases h
  | cons X Xs ih =>
    rw [encFold_cons, List.mem_cons] at h
    rcases h with rfl | h
    · simp
    · exact ih h

@[simp] theorem decFold_nil (P : Params) (key chain : Bytes) : decFold P key chain [] = [] := rfl

theorem decFold_cons (P : Params) (key chain C : Bytes) (Cs : List Bytes) :
    decFold P key chain (C :: Cs) = xorBytes (P.D C key) chain :: decFold P key C Cs := rfl

@[simp] theorem decFold_length (P : Params) (key chain : Bytes) (Cs : List Bytes) :
    (decFold P key chain Cs).length = Cs.length := by
  induction Cs generalizing chain with
  | nil => rfl
  | cons C Cs ih => simp [decFold_cons, ih]

/-- A recovered block is the primitive's answer xor-ed with the chaining state: the IV before the first block, the previous
ciphertext block after it (R105). -/
theorem decFold_getElem? (P : Params) (key chain : Bytes) (Cs : List Bytes) (j : Nat) :
    (decFold P key chain Cs)[j]? =
      Cs[j]?.map fun C => xorBytes (P.D C key) (if j = 0 then chain else Cs.getD (j - 1) []) := by
  induction Cs generalizing chain j with
  | nil => simp
  | cons C Cs ih =>
    rw [decFold_cons]
    cases j with
    | zero => simp
    | succ j =>
      simp only [List.getElem?_cons_succ, ih]
      cases j with
      | zero => cases Cs <;> simp
      | succ j => simp

theorem unpadLast_singleton (P : Params) (R : Bytes) : unpadLast P [R] = unpad P R := rfl

theorem unpadLast_cons {P : Params} {R : Bytes} {Rs : List Bytes} (h : Rs ≠ []) :
    unpadLast P (R :: Rs) = match unpadLast P Rs with
      | .ok v => .ok (R ++ v)
      | .fail f => .fail f := by
  cases Rs with
  | nil => exact absurd rfl h
  | cons S Rs => rfl

/-- The codec touches the last block only (R105): the blocks before it come out whole, and its failure is the call's. -/
theorem unpadLast_append (P : Params) (Rs : List Bytes) (R : Bytes) :
    unpadLast P (Rs ++ [R]) = match unpad P R with
      | .ok v => .ok (Rs.flatten ++ v)
      | .fail f => .fail f := by
  induction Rs with
  | nil => simp only [List.nil_append, unpadLast_singleton]; cases unpad P R <;> rfl
  | cons S Rs ih =>
    rw [List.cons_append, unpadLast_cons (by simp), ih]
    cases unpad P R <;> simp

end Sys2Proof.Machine
end

