-- ==== Sys2Proof/Laws/Flags.lean ====
section
/-! SUPPORT. The fields of the STATUS words the machine writes (spec/10_state.md R25). -/

namespace Sys2Proof.Machine

@[simp] theorem busyOf_statusWord (b d : Bool) (e : BitVec 2) : busyOf (statusWord b d e) = b := by
  cases b <;> cases d <;> revert e <;> decide

@[simp] theorem doneOf_statusWord (b d : Bool) (e : BitVec 2) : doneOf (statusWord b d e) = d := by
  cases b <;> cases d <;> revert e <;> decide

@[simp] theorem errOf_statusWord (b d : Bool) (e : BitVec 2) : errOf (statusWord b d e) = e := by
  cases b <;> cases d <;> revert e <;> decide

@[simp] theorem reservedOf_statusWord (b d : Bool) (e : BitVec 2) : reservedOf (statusWord b d e) = 0#4 := by
  cases b <;> cases d <;> revert e <;> decide

@[simp] theorem busyOf_statusBusy : busyOf statusBusy = true := by decide
@[simp] theorem doneOf_statusBusy : doneOf statusBusy = false := by decide
@[simp] theorem errOf_statusBusy : errOf statusBusy = 0#2 := by decide
@[simp] theorem reservedOf_statusBusy : reservedOf statusBusy = 0#4 := by decide

@[simp] theorem errCode_ok (v : Bytes) : errCode (.ok v) = 0#2 := rfl
@[simp] theorem errCode_fail (f : Failure) : errCode (.fail f) = codeOf f := rfl

@[simp] theorem busyOf_statusDone (r : Result) : busyOf (statusDone r) = false := by simp [statusDone]
@[simp] theorem doneOf_statusDone (r : Result) : doneOf (statusDone r) = true := by simp [statusDone]
@[simp] theorem reservedOf_statusDone (r : Result) : reservedOf (statusDone r) = 0#4 := by simp [statusDone]
@[simp] theorem errOf_statusDone (r : Result) : errOf (statusDone r) = errCode r := by simp [statusDone]

/-- No failure has the code of success (spec/60_exceptions.md R130). -/
theorem codeOf_ne_zero (f : Failure) : codeOf f ≠ 0#2 := by cases f <;> decide

/-- The code names the failure (spec/60_exceptions.md R130). -/
theorem codeOf_injective {f g : Failure} (h : codeOf f = codeOf g) : f = g := by
  cases f <;> cases g <;> simp_all [codeOf]

end Sys2Proof.Machine
end

