-- ==== Sys2Proof/Laws/Memory.lean ====
section
/-! SUPPORT. The laws of the stored bytes: read after write, and that a write keeps the canonical form and the space's
bounds. -/

namespace Sys2Proof.Machine

@[simp] theorem Memory.read_nil (i : Nat) : Memory.read [] i = none := rfl

theorem Memory.read_cons (j : Nat) (b : Byte) (m : Memory) (i : Nat) :
    Memory.read ((j, b) :: m) i = if i = j then some b else Memory.read m i := rfl

/-- A read after a write to the same index gives the byte written. -/
@[simp] theorem Memory.read_write_same (m : Memory) (i : Nat) (b : Byte) : (m.write i b).read i = some b := by
  induction m with
  | nil => simp [Memory.write, Memory.read]
  | cons c m ih =>
    obtain ⟨j, c⟩ := c
    simp only [Memory.write]
    split
    · simp [Memory.read]
    · split
      · simp [Memory.read]
      · rename_i h; simp [Memory.read, h, ih]

/-- A write leaves every other index alone. -/
theorem Memory.read_write_other (m : Memory) {i k : Nat} (b : Byte) (h : k ≠ i) : (m.write i b).read k = m.read k := by
  induction m with
  | nil => simp [Memory.write, Memory.read, h, Memory.unlisted]
  | cons c m ih =>
    obtain ⟨j, c⟩ := c
    simp only [Memory.write]
    split
    · simp [Memory.read, h]
    · split
      · rename_i hij; subst hij; simp [Memory.read, h]
      · simp [Memory.read, ih]

/-- What a read after a write gives, at every index. -/
theorem Memory.read_write (m : Memory) (i k : Nat) (b : Byte) :
    (m.write i b).read k = if k = i then some b else m.read k := by
  split
  · subst k; simp
  · exact Memory.read_write_other m b ‹_›

/-- The first index of a non-empty written memory: the new index or the old first one. -/
theorem Memory.write_head (m : Memory) (i : Nat) (b : Byte) :
    ∃ c r, m.write i b = c :: r ∧ (c.1 = i ∨ ∃ d q, m = d :: q ∧ c = d) := by
  cases m with
  | nil => exact ⟨(i, b), [], rfl, .inl rfl⟩
  | cons d q =>
    obtain ⟨j, c⟩ := d
    simp only [Memory.write]
    split
    · exact ⟨_, _, rfl, .inl rfl⟩
    · split
      · exact ⟨_, _, rfl, .inl rfl⟩
      · exact ⟨_, _, rfl, .inr ⟨_, _, rfl, rfl⟩⟩

theorem Memory.wf_tail {a : Host.Cell} {m : Memory} (h : Memory.wf (a :: m) = true) : Memory.wf m = true := by
  cases m with
  | nil => rfl
  | cons b m => simp only [Memory.wf, Bool.and_eq_true] at h; exact h.2

/-- A write keeps the canonical form. -/
theorem Memory.wf_write {m : Memory} (i : Nat) (b : Byte) (h : m.wf = true) : (m.write i b).wf = true := by
  induction m with
  | nil => rfl
  | cons c m ih =>
    obtain ⟨j, c⟩ := c
    simp only [Memory.write]
    split
    · rename_i hij; simp [Memory.wf, hij, h]
    · split
      · rename_i _ hij
        subst hij
        cases m with
        | nil => rfl
        | cons d m => simpa [Memory.wf] using h
      · rename_i h1 h2
        have hm := ih (Memory.wf_tail h)
        obtain ⟨d, r, hw, hd⟩ := Memory.write_head m i b
        rw [hw] at hm ⊢
        simp only [Memory.wf, Bool.and_eq_true, decide_eq_true_eq]
        refine ⟨?_, hm⟩
        rcases hd with hd | ⟨e, q, rfl, rfl⟩
        · omega
        · simp only [Memory.wf, Bool.and_eq_true, decide_eq_true_eq] at h; exact h.1

/-- A write inside the space keeps every stored index inside it. -/
theorem Memory.below_write {m : Memory} {n i : Nat} (b : Byte) (h : m.below n = true) (hi : i < n) :
    (m.write i b).below n = true := by
  induction m with
  | nil => simp [Memory.write, Memory.below, hi]
  | cons c m ih =>
    obtain ⟨j, c⟩ := c
    simp only [Memory.below, List.all_cons, Bool.and_eq_true, decide_eq_true_eq] at h ih ⊢
    simp only [Memory.write]
    split
    · simp [hi, h]
    · split
      · simpa [hi] using h.2
      · simpa [h.1] using ih h.2

end Sys2Proof.Machine
end

