-- ==== Sys2Proof/Laws/PerInstr.lean ====
section
/-! SUPPORT. Statements for all commands, made per command: the encoding of each (spec/30_encoding.md R60, R62). -/

namespace Sys2Proof.Laws.Encoding

/-- The command is well formed, its word has RSV zero, and the decoder and the table reader give the command back. -/
def Statement (i : Instr) : Prop :=
  i.wf = true ∧ fieldRSV (encode i) = 0#5 ∧ fieldOP (encode i) = opOf i ∧ decode (encode i) = .command i ∧
    decodeTableWord 8 (encode i).toNat = some i

theorem pad : Statement .pad := by refine ⟨?_, ?_, ?_, ?_, ?_⟩ <;> decide
theorem unpad : Statement .unpad := by refine ⟨?_, ?_, ?_, ?_, ?_⟩ <;> decide
theorem xor : Statement .xor := by refine ⟨?_, ?_, ?_, ?_, ?_⟩ <;> decide
theorem cbcenc : Statement .cbcenc := by refine ⟨?_, ?_, ?_, ?_, ?_⟩ <;> decide
theorem cbcdec : Statement .cbcdec := by refine ⟨?_, ?_, ?_, ?_, ?_⟩ <;> decide

end Sys2Proof.Laws.Encoding
end

