-- ==== Sys2Proof/Laws/State.lean ====
section
/-! SUPPORT. One lemma per field per update, true by definition, so that no later proof unfolds a record update. -/

namespace Sys2Proof.Machine

section setInlen
variable (s : State) (n : Nat)

@[simp] theorem State.setInlen_key : (s.setInlen n).key = s.key := rfl
@[simp] theorem State.setInlen_iv : (s.setInlen n).iv = s.iv := rfl
@[simp] theorem State.setInlen_chain : (s.setInlen n).chain = s.chain := rfl
@[simp] theorem State.setInlen_status : (s.setInlen n).status = s.status := rfl
@[simp] theorem State.setInlen_inlen : (s.setInlen n).inlen = n := rfl
@[simp] theorem State.setInlen_auxlen : (s.setInlen n).auxlen = s.auxlen := rfl
@[simp] theorem State.setInlen_pend : (s.setInlen n).pend = s.pend := rfl
@[simp] theorem State.setInlen_inp : (s.setInlen n).inp = s.inp := rfl
@[simp] theorem State.setInlen_aux : (s.setInlen n).aux = s.aux := rfl
@[simp] theorem State.setInlen_out : (s.setInlen n).out = s.out := rfl
@[simp] theorem State.setInlen_events : (s.setInlen n).events = s.events := rfl
@[simp] theorem State.setInlen_returned : (s.setInlen n).returned = s.returned := rfl
@[simp] theorem State.setInlen_trace : (s.setInlen n).trace = s.trace := rfl
@[simp] theorem State.setInlen_draws : (s.setInlen n).draws = s.draws := rfl
@[simp] theorem State.setInlen_unspecified : (s.setInlen n).unspecified = s.unspecified := rfl
@[simp] theorem State.setInlen_copy : (s.setInlen n).copy = s.copy := rfl
@[simp] theorem State.setInlen_params : (s.setInlen n).params = s.params := rfl

end setInlen

section setAuxlen
variable (s : State) (n : Nat)

@[simp] theorem State.setAuxlen_key : (s.setAuxlen n).key = s.key := rfl
@[simp] theorem State.setAuxlen_iv : (s.setAuxlen n).iv = s.iv := rfl
@[simp] theorem State.setAuxlen_chain : (s.setAuxlen n).chain = s.chain := rfl
@[simp] theorem State.setAuxlen_status : (s.setAuxlen n).status = s.status := rfl
@[simp] theorem State.setAuxlen_inlen : (s.setAuxlen n).inlen = s.inlen := rfl
@[simp] theorem State.setAuxlen_auxlen : (s.setAuxlen n).auxlen = n := rfl
@[simp] theorem State.setAuxlen_pend : (s.setAuxlen n).pend = s.pend := rfl
@[simp] theorem State.setAuxlen_inp : (s.setAuxlen n).inp = s.inp := rfl
@[simp] theorem State.setAuxlen_aux : (s.setAuxlen n).aux = s.aux := rfl
@[simp] theorem State.setAuxlen_out : (s.setAuxlen n).out = s.out := rfl
@[simp] theorem State.setAuxlen_events : (s.setAuxlen n).events = s.events := rfl
@[simp] theorem State.setAuxlen_returned : (s.setAuxlen n).returned = s.returned := rfl
@[simp] theorem State.setAuxlen_trace : (s.setAuxlen n).trace = s.trace := rfl
@[simp] theorem State.setAuxlen_draws : (s.setAuxlen n).draws = s.draws := rfl
@[simp] theorem State.setAuxlen_unspecified : (s.setAuxlen n).unspecified = s.unspecified := rfl
@[simp] theorem State.setAuxlen_copy : (s.setAuxlen n).copy = s.copy := rfl
@[simp] theorem State.setAuxlen_params : (s.setAuxlen n).params = s.params := rfl

end setAuxlen

section issue
variable (s : State) (w : BitVec 8)

@[simp] theorem State.issue_key : (s.issue w).key = s.key := rfl
@[simp] theorem State.issue_iv : (s.issue w).iv = s.iv := rfl
@[simp] theorem State.issue_chain : (s.issue w).chain = s.chain := rfl
@[simp] theorem State.issue_status : (s.issue w).status = statusBusy := rfl
@[simp] theorem State.issue_inlen : (s.issue w).inlen = s.inlen := rfl
@[simp] theorem State.issue_auxlen : (s.issue w).auxlen = s.auxlen := rfl
@[simp] theorem State.issue_pend : (s.issue w).pend = some w := rfl
@[simp] theorem State.issue_inp : (s.issue w).inp = s.inp := rfl
@[simp] theorem State.issue_aux : (s.issue w).aux = s.aux := rfl
@[simp] theorem State.issue_out : (s.issue w).out = [] := rfl
@[simp] theorem State.issue_events : (s.issue w).events = s.events := rfl
@[simp] theorem State.issue_returned : (s.issue w).returned = s.returned := rfl
@[simp] theorem State.issue_trace : (s.issue w).trace = s.trace := rfl
@[simp] theorem State.issue_draws : (s.issue w).draws = s.draws := rfl
@[simp] theorem State.issue_unspecified : (s.issue w).unspecified = s.unspecified := rfl
@[simp] theorem State.issue_copy : (s.issue w).copy = s.copy := rfl
@[simp] theorem State.issue_params : (s.issue w).params = s.params := rfl

end issue

section reply
variable (s : State) (l : Loc) (v : Nat)

@[simp] theorem State.reply_key : (s.reply l v).key = s.key := rfl
@[simp] theorem State.reply_iv : (s.reply l v).iv = s.iv := rfl
@[simp] theorem State.reply_chain : (s.reply l v).chain = s.chain := rfl
@[simp] theorem State.reply_status : (s.reply l v).status = s.status := rfl
@[simp] theorem State.reply_inlen : (s.reply l v).inlen = s.inlen := rfl
@[simp] theorem State.reply_auxlen : (s.reply l v).auxlen = s.auxlen := rfl
@[simp] theorem State.reply_pend : (s.reply l v).pend = s.pend := rfl
@[simp] theorem State.reply_inp : (s.reply l v).inp = s.inp := rfl
@[simp] theorem State.reply_aux : (s.reply l v).aux = s.aux := rfl
@[simp] theorem State.reply_out : (s.reply l v).out = s.out := rfl
@[simp] theorem State.reply_events : (s.reply l v).events = s.events := rfl
@[simp] theorem State.reply_returned : (s.reply l v).returned = s.returned ++ [⟨l, v⟩] := rfl
@[simp] theorem State.reply_trace : (s.reply l v).trace = s.trace := rfl
@[simp] theorem State.reply_draws : (s.reply l v).draws = s.draws := rfl
@[simp] theorem State.reply_unspecified : (s.reply l v).unspecified = s.unspecified := rfl
@[simp] theorem State.reply_copy : (s.reply l v).copy = s.copy := rfl
@[simp] theorem State.reply_params : (s.reply l v).params = s.params := rfl

end reply

section spend
variable (s : State)

@[simp] theorem State.spend_key : (s.spend).key = s.key := rfl
@[simp] theorem State.spend_iv : (s.spend).iv = s.iv := rfl
@[simp] theorem State.spend_chain : (s.spend).chain = s.chain := rfl
@[simp] theorem State.spend_status : (s.spend).status = s.status := rfl
@[simp] theorem State.spend_inlen : (s.spend).inlen = s.inlen := rfl
@[simp] theorem State.spend_auxlen : (s.spend).auxlen = s.auxlen := rfl
@[simp] theorem State.spend_pend : (s.spend).pend = s.pend := rfl
@[simp] theorem State.spend_inp : (s.spend).inp = s.inp := rfl
@[simp] theorem State.spend_aux : (s.spend).aux = s.aux := rfl
@[simp] theorem State.spend_out : (s.spend).out = s.out := rfl
@[simp] theorem State.spend_events : (s.spend).events = s.events := rfl
@[simp] theorem State.spend_returned : (s.spend).returned = s.returned := rfl
@[simp] theorem State.spend_trace : (s.spend).trace = s.trace := rfl
@[simp] theorem State.spend_draws : (s.spend).draws = s.draws + 1 := rfl
@[simp] theorem State.spend_unspecified : (s.spend).unspecified = s.unspecified := rfl
@[simp] theorem State.spend_copy : (s.spend).copy = s.copy := rfl
@[simp] theorem State.spend_params : (s.spend).params = s.params := rfl

end spend

section withEvents
variable (s : State) (es : List Event)

@[simp] theorem State.withEvents_key : (s.withEvents es).key = s.key := rfl
@[simp] theorem State.withEvents_iv : (s.withEvents es).iv = s.iv := rfl
@[simp] theorem State.withEvents_chain : (s.withEvents es).chain = s.chain := rfl
@[simp] theorem State.withEvents_status : (s.withEvents es).status = s.status := rfl
@[simp] theorem State.withEvents_inlen : (s.withEvents es).inlen = s.inlen := rfl
@[simp] theorem State.withEvents_auxlen : (s.withEvents es).auxlen = s.auxlen := rfl
@[simp] theorem State.withEvents_pend : (s.withEvents es).pend = s.pend := rfl
@[simp] theorem State.withEvents_inp : (s.withEvents es).inp = s.inp := rfl
@[simp] theorem State.withEvents_aux : (s.withEvents es).aux = s.aux := rfl
@[simp] theorem State.withEvents_out : (s.withEvents es).out = s.out := rfl
@[simp] theorem State.withEvents_events : (s.withEvents es).events = es := rfl
@[simp] theorem State.withEvents_returned : (s.withEvents es).returned = s.returned := rfl
@[simp] theorem State.withEvents_trace : (s.withEvents es).trace = s.trace := rfl
@[simp] theorem State.withEvents_draws : (s.withEvents es).draws = s.draws := rfl
@[simp] theorem State.withEvents_unspecified : (s.withEvents es).unspecified = s.unspecified := rfl
@[simp] theorem State.withEvents_copy : (s.withEvents es).copy = s.copy := rfl
@[simp] theorem State.withEvents_params : (s.withEvents es).params = s.params := rfl

end withEvents

section complete
variable (s : State) (r : Run)

@[simp] theorem State.complete_key : (s.complete r).key = s.key := rfl
@[simp] theorem State.complete_iv : (s.complete r).iv = s.iv := rfl
@[simp] theorem State.complete_chain : (s.complete r).chain = none := rfl
@[simp] theorem State.complete_status : (s.complete r).status = statusDone r.result := rfl
@[simp] theorem State.complete_inlen : (s.complete r).inlen = s.inlen := rfl
@[simp] theorem State.complete_auxlen : (s.complete r).auxlen = s.auxlen := rfl
@[simp] theorem State.complete_pend : (s.complete r).pend = none := rfl
@[simp] theorem State.complete_inp : (s.complete r).inp = s.inp := rfl
@[simp] theorem State.complete_aux : (s.complete r).aux = s.aux := rfl
@[simp] theorem State.complete_out : (s.complete r).out = outputOf r.result := rfl
@[simp] theorem State.complete_events : (s.complete r).events = s.events := rfl
@[simp] theorem State.complete_returned : (s.complete r).returned = s.returned := rfl
@[simp] theorem State.complete_trace : (s.complete r).trace = s.trace ++ r.calls := rfl
@[simp] theorem State.complete_draws : (s.complete r).draws = if r.drew then s.draws + 1 else s.draws := rfl
@[simp] theorem State.complete_unspecified : (s.complete r).unspecified = (s.unspecified || r.drew) := rfl
@[simp] theorem State.complete_copy : (s.complete r).copy = s.copy := rfl
@[simp] theorem State.complete_params : (s.complete r).params = s.params := rfl

end complete

section withCommand
variable (s : State) (w : BitVec 8)

@[simp] theorem State.withCommand_key : (s.withCommand w).key = s.key := rfl
@[simp] theorem State.withCommand_iv : (s.withCommand w).iv = s.iv := rfl
@[simp] theorem State.withCommand_chain : (s.withCommand w).chain = s.chain := rfl
@[simp] theorem State.withCommand_status : (s.withCommand w).status = statusBusy := rfl
@[simp] theorem State.withCommand_inlen : (s.withCommand w).inlen = s.inlen := rfl
@[simp] theorem State.withCommand_auxlen : (s.withCommand w).auxlen = s.auxlen := rfl
@[simp] theorem State.withCommand_pend : (s.withCommand w).pend = some w := rfl
@[simp] theorem State.withCommand_inp : (s.withCommand w).inp = s.inp := rfl
@[simp] theorem State.withCommand_aux : (s.withCommand w).aux = s.aux := rfl
@[simp] theorem State.withCommand_out : (s.withCommand w).out = [] := rfl
@[simp] theorem State.withCommand_events : (s.withCommand w).events = .engine :: s.events := rfl
@[simp] theorem State.withCommand_returned : (s.withCommand w).returned = s.returned := rfl
@[simp] theorem State.withCommand_trace : (s.withCommand w).trace = s.trace := rfl
@[simp] theorem State.withCommand_draws : (s.withCommand w).draws = s.draws := rfl
@[simp] theorem State.withCommand_unspecified : (s.withCommand w).unspecified = s.unspecified := rfl
@[simp] theorem State.withCommand_copy : (s.withCommand w).copy = s.copy := rfl
@[simp] theorem State.withCommand_params : (s.withCommand w).params = s.params := rfl

end withCommand

section storeByte
variable (s : State) (sp : Space) (i : Nat) (b : Byte)

@[simp] theorem State.storeByte_chain : (s.storeByte sp i b).chain = s.chain := by cases sp <;> rfl
@[simp] theorem State.storeByte_status : (s.storeByte sp i b).status = s.status := by cases sp <;> rfl
@[simp] theorem State.storeByte_inlen : (s.storeByte sp i b).inlen = s.inlen := by cases sp <;> rfl
@[simp] theorem State.storeByte_auxlen : (s.storeByte sp i b).auxlen = s.auxlen := by cases sp <;> rfl
@[simp] theorem State.storeByte_pend : (s.storeByte sp i b).pend = s.pend := by cases sp <;> rfl
@[simp] theorem State.storeByte_out : (s.storeByte sp i b).out = s.out := by cases sp <;> rfl
@[simp] theorem State.storeByte_events : (s.storeByte sp i b).events = s.events := by cases sp <;> rfl
@[simp] theorem State.storeByte_returned : (s.storeByte sp i b).returned = s.returned := by cases sp <;> rfl
@[simp] theorem State.storeByte_trace : (s.storeByte sp i b).trace = s.trace := by cases sp <;> rfl
@[simp] theorem State.storeByte_draws : (s.storeByte sp i b).draws = s.draws := by cases sp <;> rfl
@[simp] theorem State.storeByte_unspecified : (s.storeByte sp i b).unspecified = s.unspecified := by cases sp <;> rfl
@[simp] theorem State.storeByte_copy : (s.storeByte sp i b).copy = s.copy := by cases sp <;> rfl
@[simp] theorem State.storeByte_params : (s.storeByte sp i b).params = s.params := by cases sp <;> rfl

end storeByte

section doReset
variable (P : Params) (s : State)

@[simp] theorem State.doReset_key : (s.doReset P).key = State.reset.key := rfl
@[simp] theorem State.doReset_iv : (s.doReset P).iv = State.reset.iv := rfl
@[simp] theorem State.doReset_chain : (s.doReset P).chain = State.reset.chain := rfl
@[simp] theorem State.doReset_status : (s.doReset P).status = State.reset.status := rfl
@[simp] theorem State.doReset_inlen : (s.doReset P).inlen = State.reset.inlen := rfl
@[simp] theorem State.doReset_auxlen : (s.doReset P).auxlen = State.reset.auxlen := rfl
@[simp] theorem State.doReset_pend : (s.doReset P).pend = State.reset.pend := rfl
@[simp] theorem State.doReset_inp : (s.doReset P).inp = State.reset.inp := rfl
@[simp] theorem State.doReset_aux : (s.doReset P).aux = State.reset.aux := rfl
@[simp] theorem State.doReset_out : (s.doReset P).out = State.reset.out := rfl
@[simp] theorem State.doReset_events : (s.doReset P).events = s.events := rfl
@[simp] theorem State.doReset_returned : (s.doReset P).returned = s.returned := rfl
@[simp] theorem State.doReset_trace : (s.doReset P).trace = if s.busy then s.trace ++ (s.pendingCalls P).take (Config.abandonedAfter s.copy s.draws) else s.trace := rfl
@[simp] theorem State.doReset_draws : (s.doReset P).draws = if s.busy then s.draws + 1 else s.draws := rfl
@[simp] theorem State.doReset_unspecified : (s.doReset P).unspecified = State.reset.unspecified := rfl
@[simp] theorem State.doReset_copy : (s.doReset P).copy = s.copy := rfl
@[simp] theorem State.doReset_params : (s.doReset P).params = s.params := rfl

end doReset

/-- The cells of a space after storing a byte: that space has the byte, every other keeps its cells
(spec/20_memory.md R43). -/
theorem State.storeByte_cells (s : State) (sp sp' : Space) (i : Nat) (b : Byte) (hr : sp ≠ .reg) (ho : sp ≠ .out) :
    (s.storeByte sp i b).cells sp' = if sp' = sp then (s.cells sp).write i b else s.cells sp' := by
  cases sp <;> cases sp' <;> simp_all [State.storeByte, State.cells]

/-- The cells of a space depend on its own field only. -/
theorem State.cells_congr {s t : State} (h : s.key = t.key ∧ s.iv = t.iv ∧ s.inp = t.inp ∧ s.aux = t.aux) (sp : Space) :
    s.cells sp = t.cells sp := by
  obtain ⟨hk, hi, hn, ha⟩ := h
  cases sp <;> simp [State.cells, *]

@[simp] theorem State.issue_cells (s : State) (w : BitVec 8) (sp : Space) : (s.issue w).cells sp = s.cells sp := by
  cases sp <;> rfl

@[simp] theorem State.reply_cells (s : State) (l : Loc) (v : Nat) (sp : Space) : (s.reply l v).cells sp = s.cells sp := by
  cases sp <;> rfl

@[simp] theorem State.spend_cells (s : State) (sp : Space) : s.spend.cells sp = s.cells sp := by
  cases sp <;> rfl

@[simp] theorem State.withEvents_cells (s : State) (es : List Event) (sp : Space) :
    (s.withEvents es).cells sp = s.cells sp := by
  cases sp <;> rfl

@[simp] theorem State.setInlen_cells (s : State) (n : Nat) (sp : Space) : (s.setInlen n).cells sp = s.cells sp := by
  cases sp <;> rfl

@[simp] theorem State.setAuxlen_cells (s : State) (n : Nat) (sp : Space) : (s.setAuxlen n).cells sp = s.cells sp := by
  cases sp <;> rfl

@[simp] theorem State.complete_cells (s : State) (r : Run) (sp : Space) : (s.complete r).cells sp = s.cells sp := by
  cases sp <;> rfl

@[simp] theorem State.reset_cells (sp : Space) : State.reset.cells sp = [] := by
  cases sp <;> rfl

@[simp] theorem State.doReset_cells (P : Params) (s : State) (sp : Space) : (s.doReset P).cells sp = [] := by
  cases sp <;> rfl

end Sys2Proof.Machine
end

