-- ==== Sys2Proof/Laws/Step.lean ====
section
/-! SUPPORT. What a step can do, said once: completion is one operation over the command's run, the ENGINE's step has one
case, a HOST access one, and the whole step four. -/

namespace Sys2Proof.Machine

/-- Every command is completion (spec/10_state.md R30) applied to what the command does. -/
theorem exec_eq_complete (i : Instr) (s : State) : exec i s = .next (s.complete (runOf s.params i s)) := by
  cases i <;> rfl

/-- The run that completes the word `w`: the command's, or a rejection for a malformed word (spec/30_encoding.md R64). -/
def wordRun (P : Params) (w : BitVec 8) (s : State) : Run :=
  match decode w with
  | .command i => runOf P i s
  | .malformed _ => .rejected .invalidInput

/-- The ENGINE's step with a word latched: completion of that word. -/
theorem engineStep_of_pend {s : State} {w : BitVec 8} (h : s.pend = some w) :
    engineStep s = .next (s.complete (wordRun s.params w s)) := by
  simp only [engineStep, h, wordRun]
  cases decode w with
  | command i => exact exec_eq_complete i s
  | malformed m => rfl

/-- What the ENGINE's step can do. -/
theorem engineStep_next {s t : State} (h : engineStep s = .next t) :
    ∃ w, s.pend = some w ∧ t = s.complete (wordRun s.params w s) := by
  cases hp : s.pend with
  | none => simp [engineStep, hp] at h
  | some w =>
    rw [engineStep_of_pend hp] at h
    exact ⟨w, rfl, (Host.Outcome.next.inj h).symm⟩

/-- A HOST access answers a next state exactly when it is well formed, and then it is the access's effect. -/
theorem hostAccess_next {P : Params} {a : Access} {s t : State} (h : hostAccess P a s = .next t) :
    a.wf P = true ∧ t = s.doAccess a := by
  cases a with
  | rd l =>
    simp only [hostAccess] at h
    split at h
    · exact ⟨‹_›, (Host.Outcome.next.inj h).symm⟩
    · cases h
  | wr l v =>
    simp only [hostAccess] at h
    split at h
    · split at h
      · exact ⟨by simp [Access.wf, *], (Host.Outcome.next.inj h).symm⟩
      · cases h
    · cases h

/-- A well-formed access completes. -/
theorem hostAccess_of_wf {P : Params} {a : Access} (s : State) (h : a.wf P = true) :
    hostAccess P a s = .next (s.doAccess a) := by
  cases a with
  | rd l => simp only [Access.wf] at h; simp [hostAccess, h]
  | wr l v => simp only [Access.wf, Bool.and_eq_true, decide_eq_true_eq] at h; simp [hostAccess, h]

/-- A port operation leaves the instance the copy it is (log entry 21). -/
@[simp] theorem State.doAccess_copy (s : State) (a : Access) : (s.doAccess a).copy = s.copy := by
  cases a with
  | rd l => simp only [State.doAccess, State.doRead]; split <;> rfl
  | wr l v =>
    obtain ⟨sp, i⟩ := l
    cases sp <;> try rfl
    rcases i with _ | _ | _ | _ | i <;> rfl

@[simp] theorem State.doAccess_params (s : State) (a : Access) : (s.doAccess a).params = s.params :=
  congrArg Config.params (s.doAccess_copy a)

/-- Everything a step that answers a next state can be. `es` are the inputs left. -/
theorem step_next {s t : State} (h : step s = .next t) :
    (s.busy = false ∧ t = s.withEvents s.events.tail ∧ (s.events = [] ∨ s.events.head? = some .engine)) ∨
    (s.busy = true ∧ ∃ es w, s.pend = some w ∧ (es = s.events ∨ s.events = .engine :: es) ∧
      t = (s.withEvents es).complete (wordRun s.params w (s.withEvents es))) ∨
    (∃ es, s.events = .reset :: es ∧ t = (s.withEvents es).doReset s.params) ∨
    (∃ a es, s.events = .access a :: es ∧ s.holds a = false ∧ a.wf s.params = true ∧
      t = (s.withEvents es).doAccess a) := by
  cases he : s.events with
  | nil =>
    simp only [step, he] at h
    split at h
    · obtain ⟨w, hw, rfl⟩ := engineStep_next h
      refine .inr (.inl ⟨‹_›, [], w, hw, .inl rfl, ?_⟩)
      rw [show s.withEvents [] = s by cases s; simp_all [State.withEvents]]
    · refine .inl ⟨Bool.eq_false_iff.mpr ‹¬s.busy = true›, ?_, .inl rfl⟩
      rw [← Host.Outcome.next.inj h]; cases s; simp_all [State.withEvents]
  | cons e es =>
    cases e with
    | reset =>
      simp only [step, he] at h
      exact .inr (.inr (.inl ⟨es, rfl, (Host.Outcome.next.inj h).symm⟩))
    | engine =>
      simp only [step, he] at h
      split at h
      · obtain ⟨w, hw, rfl⟩ := engineStep_next h
        exact .inr (.inl ⟨‹_›, es, w, by simpa using hw, .inr rfl, rfl⟩)
      · exact .inl ⟨Bool.eq_false_iff.mpr ‹¬s.busy = true›, (Host.Outcome.next.inj h).symm, .inr rfl⟩
    | access a =>
      simp only [step, he] at h
      split at h
      · obtain ⟨w, hw, rfl⟩ := engineStep_next h
        have hb : s.busy = true := by
          have := ‹s.holds a = true›; simp only [State.holds, Bool.and_eq_true] at this; exact this.1
        refine .inr (.inl ⟨hb, .access a :: es, w, hw, .inl rfl, ?_⟩)
        rw [show s.withEvents (.access a :: es) = s by cases s; simp_all [State.withEvents]]
      · exact .inr (.inr (.inr ⟨a, es, rfl, Bool.eq_false_iff.mpr ‹¬s.holds a = true›, hostAccess_next h⟩))

/-- No step makes an instance another copy of the model (log entry 21). -/
theorem step_copy {s t : State} (h : step s = .next t) : t.copy = s.copy := by
  rcases step_next h with ⟨_, rfl, _⟩ | ⟨_, _, _, _, _, rfl⟩ | ⟨_, _, rfl⟩ | ⟨_, _, _, _, _, rfl⟩ <;> simp

/-- So its parameters stay what they are (spec/00_scope.md R4 to R7: "none can change after construction"). -/
theorem step_params {s t : State} (h : step s = .next t) : t.params = s.params := congrArg Config.params (step_copy h)

end Sys2Proof.Machine
end

