-- ==== Sys2Proof/Laws/WellFormed.lean ====
section
/-! SUPPORT. What well-formedness of a location and of an access says (spec/20_memory.md R41, R42, R45), so that no proof
unfolds the checks. -/

namespace Sys2Proof.Machine

theorem Loc.wf_iff {P : Params} {l : Loc} : l.wf P = true ↔ l.index < l.space.size P := by
  rw [Loc.wf, decide_eq_true_iff]

theorem Access.wf_rd {P : Params} {l : Loc} : (Access.rd l).wf P = true ↔ l.index < l.space.size P := Loc.wf_iff

theorem Access.wf_wr {P : Params} {l : Loc} {v : Nat} :
    (Access.wr l v).wf P = true ↔ l.index < l.space.size P ∧ v ≤ l.maxValue P := by
  rw [Access.wf, Bool.and_eq_true, Loc.wf_iff, decide_eq_true_iff]

/-- A read of any register of space REG is well formed. -/
theorem Access.wf_rd_reg (P : Params) {i : Nat} (h : i < 5) : (Access.rd ⟨.reg, i⟩).wf P = true := Access.wf_rd.2 h

/-- A CMD write of any 8-bit word is well formed (spec/10_state.md R29). -/
theorem Access.wf_wr_cmd (P : Params) (w : BitVec 8) : (Access.wr .cmd w.toNat).wf P = true := by
  rw [Access.wf_wr]
  exact ⟨show 0 < 5 by decide, show w.toNat ≤ 255 by have := w.isLt; omega⟩

end Sys2Proof.Machine
end

