-- ==== Sys2Proof/Tests/Slice0.lean ====
section
/-! SUPPORT. Tests whose expected results are the vectors of spec/95_test_vectors.md (their ids are named), and for every statement
with hypotheses a witness that meets them all. -/

namespace Sys2Proof.Machine.Tests

-- ---------------------------------------------------------------- parameters of the vectors

/-- `B = K = 16`, `LENW = 16` with the given primitive (95_test_vectors.md, conventions). -/
def mock (E D : Bytes → Bytes → Nat → Byte) : Params := ⟨15, 15, 15, E, D⟩

/-- The mock primitives of 95_test_vectors.md section 5. -/
def idP : Params := mock (fun x _ i => x.getD i 0) (fun y _ i => y.getD i 0)
def rotP : Params :=
  mock (fun x k i => x.getD ((i + 1) % 16) 0 ^^^ k.getD i 0) (fun y k i => (xorBytes y k).getD ((i + 15) % 16) 0)
def zeroP : Params := mock (fun _ _ _ => 0) (fun _ _ _ => 0)

/-- `KEYS`, `IV0`, `IV1`. -/
def keys : Bytes := Script.ascii "YELLOW SUBMARINE".toList
def iv0 : Bytes := rep 0x00 16
def iv1 : Bytes := (List.range 16).map (BitVec.ofNat 8)

/-- A small instance for the witnesses: `B = 2`, `K = 1`, `LENW = 4`, the identity as primitive. -/
def two : Params := ⟨1, 0, 3, fun x _ i => x.getD i 0, fun y _ i => y.getD i 0⟩

-- ---------------------------------------------------------------- states

/-- The cells that hold the bytes `x` from index `i` on. -/
def cellsFrom : Nat → Bytes → Memory
  | _, [] => []
  | i, b :: bs => (i, b) :: cellsFrom (i + 1) bs

theorem read_cellsFrom (x : Bytes) : ∀ i j, j < x.length → (cellsFrom i x).read (i + j) = x[j]? := by
  induction x with
  | nil => intro i j h; cases h
  | cons b bs ih =>
    intro i j h
    cases j with
    | zero => simp [cellsFrom, Memory.read]
    | succ j =>
      have := ih (i + 1) j (by simpa using h)
      rw [show i + (j + 1) = i + 1 + j by omega]
      simp [cellsFrom, Memory.read, show i + 1 + j ≠ i by omega, this]

/-- An idle machine with the operands given and the lengths of `x` and `y` set. -/
def loaded (x y key iv : Bytes) : State :=
  { State.reset with
    key := cellsFrom 0 key, iv := cellsFrom 0 iv, inp := cellsFrom 0 x, aux := cellsFrom 0 y,
    inlen := x.length, auxlen := y.length }

theorem loaded_params (x y key iv : Bytes) : (loaded x y key iv).params = Config.params 0 := rfl

theorem holds_inp (x y key iv : Bytes) : (loaded x y key iv).Holds .inp x := fun i h => by
  simpa [loaded, State.cells] using read_cellsFrom x 0 i h
theorem holds_aux (x y key iv : Bytes) : (loaded x y key iv).Holds .aux y := fun i h => by
  simpa [loaded, State.cells] using read_cellsFrom y 0 i h
theorem holds_key (x y key iv : Bytes) : (loaded x y key iv).Holds .key key := fun i h => by
  simpa [loaded, State.cells] using read_cellsFrom key 0 i h
theorem holds_iv (x y key iv : Bytes) : (loaded x y key iv).Holds .iv iv := fun i h => by
  simpa [loaded, State.cells] using read_cellsFrom iv 0 i h

/-- The parameters of the copy that `State.reset` is: opaque, as every copy's. -/
abbrev P0 : Params := Config.params 0

theorem reset_params : State.reset.params = P0 := rfl

/-- The instance right after reset with inputs `es`, and with command word `w` in progress. -/
def idleWith (es : List Event) : State := State.reset.withEvents es
def busyWith (w : BitVec 8) (es : List Event) : State := (State.reset.issue w).withEvents es

theorem reset_inv : State.reset.Inv P0 :=
  ⟨fun h => by simp [State.busy, State.reset, busyOf] at h, fun _ => ⟨rfl, rfl⟩, fun h => absurd rfl h,
    ⟨Nat.zero_le _, rfl, Nat.zero_le _, Nat.zero_le _⟩, fun sp => by cases sp <;> exact ⟨rfl, rfl⟩⟩

theorem busyWith_inv (w : BitVec 8) (es : List Event) : (busyWith w es).Inv P0 :=
  ⟨fun _ => ⟨doneOf_statusBusy, errOf_statusBusy, rfl, rfl⟩, fun h => by simp [State.busy, busyWith] at h, fun h => by simp [State.err, busyWith] at h,
    ⟨Nat.zero_le _, by simp [busyWith], Nat.zero_le _, Nat.zero_le _⟩, fun sp => by cases sp <;> exact ⟨rfl, rfl⟩⟩

theorem idleWith_busy (es : List Event) : (idleWith es).busy = false := by
  show busyOf 0x00#8 = false; decide

theorem busyWith_busy (w : BitVec 8) (es : List Event) : (busyWith w es).busy = true := busyOf_statusBusy

/-- An access of a location completes on an idle instance. -/
theorem step_idleWith {a : Access} {es : List Event} (h : a.wf P0 = true) :
    step (idleWith (.access a :: es)) = .next ((idleWith es).doAccess a) := by
  have hh : (idleWith (.access a :: es)).holds a = false := by rw [State.holds, idleWith_busy, Bool.false_and]
  have : step (idleWith (.access a :: es)) = hostAccess P0 a (idleWith es) := by
    show (if (idleWith (.access a :: es)).holds a then _ else _) = _
    rw [hh]; rfl
  rw [this, hostAccess_of_wf _ h]

/-- STATUS and OUT after an outcome, for the vectors. -/
def shown : Host.Outcome State Fault Refusal → Option (BitVec 8 × Bytes)
  | .next t => some (t.status, t.out)
  | _ => none

-- ---------------------------------------------------------------- well-formedness

/-- Every command is well formed (30_encoding.md R63: no operand). -/
theorem test_wf_commands : ∀ i ∈ [Instr.pad, .unpad, .xor, .cbcenc, .cbcdec], i.wf = true := by decide

/-- R42: indices below the size are locations, the size itself is not; one check per space. -/
theorem test_wf_index :
    (⟨.reg, 4⟩ : Loc).wf two = true ∧ (⟨.reg, 5⟩ : Loc).wf two = false ∧
    (⟨.key, 0⟩ : Loc).wf two = true ∧ (⟨.key, 1⟩ : Loc).wf two = false ∧
    (⟨.iv, 1⟩ : Loc).wf two = true ∧ (⟨.iv, 2⟩ : Loc).wf two = false ∧
    (⟨.inp, 14⟩ : Loc).wf two = true ∧ (⟨.inp, 15⟩ : Loc).wf two = false ∧
    (⟨.aux, 14⟩ : Loc).wf two = true ∧ (⟨.aux, 15⟩ : Loc).wf two = false ∧
    (⟨.out, 15⟩ : Loc).wf two = true ∧ (⟨.out, 16⟩ : Loc).wf two = false := by decide

/-- R24, R45: the widths of the values, and an access that is ill formed by its index alone. -/
theorem test_wf_value :
    (Access.wr .cmd 255).wf two = true ∧ (Access.wr .cmd 256).wf two = false ∧
    (Access.wr .status 256).wf two = false ∧ (Access.wr .inlen 15).wf two = true ∧
    (Access.wr .inlen 16).wf two = false ∧ (Access.wr .auxlen 16).wf two = false ∧
    (Access.wr .outlen 16).wf two = true ∧ (Access.wr .outlen 17).wf two = false ∧
    (Access.wr ⟨.key, 0⟩ 256).wf two = false ∧ (Access.wr ⟨.key, 1⟩ 0).wf two = false ∧
    (Access.rd ⟨.reg, 5⟩).wf two = false := by decide

/-- R6 at the conventions of 95_test_vectors.md: `NMAX = 65535`, `OUTCAP = 65536`. -/
theorem test_sizes : idP.B = 16 ∧ idP.K = 16 ∧ idP.NMAX = 65535 ∧ idP.OUTCAP = 65536 := by decide

-- ---------------------------------------------------------------- decoding

/-- The words of 30_encoding.md R62, bit by bit. -/
theorem test_decode_pad : decode 0b00000001#8 = .command .pad := by decide
theorem test_decode_unpad : decode 0b00000010#8 = .command .unpad := by decide
theorem test_decode_xor : decode 0b00000011#8 = .command .xor := by decide
theorem test_decode_cbcenc : decode 0b00000100#8 = .command .cbcenc := by decide
theorem test_decode_cbcdec : decode 0b00000101#8 = .command .cbcdec := by decide

/-- The malformed words of 95_test_vectors.md section 7.2. -/
theorem test_decode_malformed :
    (∀ w ∈ [0x00#8, 0x06#8, 0x07#8], decode w = .malformed .reservedOp) ∧
    (∀ w ∈ [0x08#8, 0x09#8, 0x0c#8, 0x81#8, 0x84#8, 0xff#8, 0x83#8], decode w = .malformed .reservedBits) := by decide

theorem test_decodeTableWord :
    decodeTableWord 8 4 = some .cbcenc ∧ decodeTableWord 8 0 = none ∧ decodeTableWord 16 4 = none ∧
    decodeTableWord 8 260 = none := by decide

-- ---------------------------------------------------------------- the vectors

/-- PA3 (scenario S2), PA5, PA7. -/
theorem test_pad : pad idP (Script.ascii "NINTENDO".toList) = .ok (Script.ascii "NINTENDO".toList ++ rep 8 8) ∧
    pad idP (rep 0x41 16) = .ok (rep 0x41 16 ++ rep 0x10 16) ∧
    (padRun idP (loaded (rep 0x41 17) [] [] [])).result = .fail .invalidInput := by decide

/-- UP22, UP7, UP9. -/
theorem test_unpad :
    (unpadRun idP (loaded (rep 0x42 14 ++ rep 2 2 ++ rep 0x41 14 ++ rep 2 2) [] [] [])).result =
      .ok (rep 0x42 14 ++ rep 2 2 ++ rep 0x41 14) ∧
    unpad idP (rep 0x41 13 ++ [2, 2, 1]) = .ok (rep 0x41 13 ++ [2, 2]) ∧
    unpad idP (rep 0x41 13 ++ [0x41, 3, 3]) = .fail .invalidPadding := by decide

/-- UP12, UP13, UP16, UP20: candidate 0, candidate above `B`, a wrong byte of the run, a length off the block size. -/
theorem test_unpad_failures :
    unpad idP (rep 0x41 15 ++ [0]) = .fail .invalidPadding ∧ unpad idP (rep 0x41 15 ++ [0x11]) = .fail .invalidPadding ∧
    unpad idP (0x0f :: rep 0x10 15) = .fail .invalidPadding ∧ unpad idP (rep 0x41 15) = .fail .invalidInput := by decide

/-- XO4 and XO7, as steps from reset's registers. -/
theorem test_xor_step :
    shown (step ((loaded [0xff, 0x00, 0xaa, 0x55] [0x0f, 0xf0, 0xff, 0x00] [] []).withFetchWord 8 3)) =
      some (0x02#8, [0xf0, 0xf0, 0x55, 0x55]) := by decide
theorem test_xor_mismatch :
    shown (step ((loaded [0x41] [] [] []).withFetchWord 8 3)) = some (0x06#8, []) := by decide

/-- EN3: scenario S1 under ROT, ciphertext and trace. -/
def en3 : Bytes :=
  [0x18, 0x04, 0x0d, 0x0d, 0x0e, 0x16, 0x61, 0x12, 0x14, 0x03, 0x0c, 0x00, 0x13, 0x08, 0x0f, 0x04,
   0x1f, 0x0a, 0x03, 0x00, 0x1b, 0x74, 0x70, 0x05, 0x14, 0x0c, 0x0f, 0x10, 0x18, 0x04, 0x08, 0x1f,
   0x43, 0x56, 0x5c, 0x47, 0x2b, 0x37, 0x35, 0x57, 0x49, 0x5d, 0x4d, 0x49, 0x46, 0x51, 0x41, 0x4a]

theorem test_cbcenc_en3 :
    (cbcencRun rotP (loaded (rep 0x41 16 ++ rep 0x42 16) [] keys iv0)).result = .ok en3 := by decide +kernel

theorem test_cbcenc_trace_en16 :
    encCalls rotP (Script.ascii "0123456789abcdefXYZ".toList) keys iv1 =
      [⟨.enc, [0x30, 0x30, 0x30, 0x30, 0x30, 0x30, 0x30, 0x30, 0x30, 0x30, 0x6b, 0x69, 0x6f, 0x69, 0x6b, 0x69], keys⟩,
       ⟨.enc, [0x31, 0x2c, 0x26, 0x71, 0x72, 0x6a, 0x1d, 0x6e, 0x68, 0x24, 0x29, 0x23, 0x36, 0x2f, 0x2a, 0x78], keys⟩] := by
  decide +kernel

/-- DE3 (round trip of EN3), DE5 (tampered: InvalidPadding after three records) and DE6 (tampered and accepted). -/
theorem test_cbcdec_de3 : cbcDecrypt rotP en3 keys iv0 = .ok (rep 0x41 16 ++ rep 0x42 16) := by decide +kernel

theorem test_cbcdec_tampered :
    cbcDecrypt idP (rep 0x41 16 ++ rep 3 15 ++ [2] ++ rep 0x13 16) keys iv0 = .fail .invalidPadding ∧
    (decCalls idP (rep 0x41 16 ++ rep 3 15 ++ [2] ++ rep 0x13 16) keys).length = 3 ∧
    cbcDecrypt idP (rep 0x41 16 ++ rep 3 15 ++ [0x12] ++ rep 0x13 16) keys iv0 =
      .ok (rep 0x41 16 ++ rep 0x42 15 ++ [0x53] ++ rep 0x10 15) := by decide +kernel

/-- DE22: without PRIM_INV the machine is defined all the same. -/
theorem test_cbcdec_zero :
    cbcDecrypt zeroP (Script.ascii "HELLO WORLD".toList ++ rep 5 5 ++ rep 0xaa 16) keys iv0 =
      .ok (rep 0 16 ++ Script.ascii "HELLO WORLD".toList) := by decide +kernel

-- ---------------------------------------------------------------- the port

/-- PT1: what reset shows. -/
theorem test_reset_reads : (List.range 5).map (fun i => State.reset.readLoc ⟨.reg, i⟩) = List.replicate 5 (some 0) := by decide

/-- PT5, PT3: read-only locations ignore writes; a byte write makes that byte written and no other. -/
theorem test_writes :
    (State.reset.doWrite .status 0xff).readLoc .status = some 0 ∧ (State.reset.doWrite .outlen 7).readLoc .outlen = some 0 ∧
    (State.reset.doWrite ⟨.key, 3⟩ 0x4c).readLoc ⟨.key, 3⟩ = some 0x4c ∧
    (State.reset.doWrite ⟨.key, 3⟩ 0x4c).readLoc ⟨.key, 2⟩ = none := by decide

/-- P4 steps 1 and 2: the expansions of `ldin` and `ldaux`; P1: `mvout`. -/
theorem test_script :
    Script.ldin two [0x41, 0x42] = some [.wr ⟨.inp, 0⟩ 0x41, .wr ⟨.inp, 1⟩ 0x42, .wr .inlen 2] ∧
    Script.ldaux two [3] = some [.wr ⟨.aux, 0⟩ 3, .wr .auxlen 1] ∧ Script.ldkey two [1, 2] = none ∧
    Script.command .cbcdec = [.wr .cmd 5] ∧
    Script.mvout [7] = [.rd .outlen, .rd ⟨.out, 0⟩, .wr ⟨.inp, 0⟩ 7, .wr .inlen 1] ∧
    Script.rderrShows 0x0e#8 = some .invalidPadding := by decide

-- ---------------------------------------------------------------- witnesses: the pure functions

theorem two_primInv : two.PrimInv := by
  intro x k hx _
  obtain ⟨a, b, rfl⟩ : ∃ a b, x = [a, b] := by
    match x, hx with
    | [a, b], _ => exact ⟨a, b, rfl⟩
  rfl

theorem witness_PadProperties : ([] : Bytes).length ≤ two.B ∧ ([7, 7] : Bytes).length ≤ two.B ∧
    pad two [7] = pad two [7] ∧ two.B < ([7, 7, 7] : Bytes).length := by decide

theorem witness_UnpadAcceptsExactlyValidTails : unpad two [7, 1] = .ok [7] ∧ unpad two [2, 2] = .ok [] ∧
    unpad two [] = .fail .invalidInput ∧ unpad two [1] = .fail .invalidInput ∧ unpad two [0, 0] = .fail .invalidPadding := by
  decide

theorem witness_UnpadInvertsPad : ([7, 7] : Bytes).length ≤ two.B := by decide

theorem witness_ReplacedLastByteIsRejectedUnlessOne : 2 ≤ 2 ∧ 2 ≤ two.B ∧ (0 : Byte) ≠ BitVec.ofNat 8 2 ∧
    (1 : Byte) ≠ BitVec.ofNat 8 2 ∧ (([] : Bytes) ++ rep (BitVec.ofNat 8 2) 2).length % two.B = 0 := by decide

theorem witness_XorContract : ([1] : Bytes).length ≠ ([] : Bytes).length ∧ ([1] : Bytes).length = ([2] : Bytes).length ∧
    0 < ([1] : Bytes).length := by decide

theorem witness_XorLaws : ([1] : Bytes).length = ([2] : Bytes).length ∧ ([2] : Bytes).length = ([3] : Bytes).length ∧
    ([] : Bytes).length = ([] : Bytes).length := by decide

theorem witness_MessageSplitsIntoChunks : 0 < ([1, 2, 3] : Bytes).length / two.B ∧ ([1, 2] : Bytes).length % two.B = 0 := by decide

theorem witness_EncryptEquations : ([0, 0] : Bytes).length = two.B ∧ 0 < ([1, 2, 3] : Bytes).length / two.B ∧
    1 ≤ ([1, 2, 3] : Bytes).length / two.B := by decide

theorem witness_CiphertextLength : ([1] : Bytes).length % two.B ≠ 0 := by decide

theorem witness_DecryptPrecondition : ([0, 0] : Bytes).length = two.B ∧ ([] : Bytes).length = 0 ∧
    ([1] : Bytes).length % two.B ≠ 0 ∧ ([1, 2] : Bytes).length % two.B = 0 ∧ two.B ≤ ([1, 2] : Bytes).length := by decide

/-- Both outcomes of the last block: `[5, 1]` is accepted, `[0, 0]` is not. -/
theorem witness_DecryptEquations : ([0, 0] : Bytes).length = two.B ∧ 0 < ([5, 1] : Bytes).length ∧
    ([5, 1] : Bytes).length % two.B = 0 ∧ unpad two [5, 1] = .ok [5] ∧ unpad two [0, 0] = .fail .invalidPadding := by decide

theorem witness_DecryptResultLength : ([0, 0] : Bytes).length = two.B ∧ cbcDecrypt two [5, 1] [0] [0, 0] = .ok [5] ∧
    cbcDecrypt two [2, 2] [0] [0, 0] = .ok [] ∧ ([2, 2] : Bytes).length = two.B ∧
    cbcDecrypt two [0, 0] [0] [0, 0] = .fail .invalidPadding ∧ cbcDecrypt two [0] [0] [0, 0] = .fail .invalidInput := by decide

theorem witness_DecryptFailureTiming : ([0, 0] : Bytes).length = two.B ∧
    cbcDecrypt two [] [0] [0, 0] = .fail .invalidInput ∧ cbcDecrypt two [0, 0] [0] [0, 0] = .fail .invalidPadding := by decide

theorem witness_RoundTrip : two.PrimInv ∧ ([0] : Bytes).length = two.K ∧ ([0, 0] : Bytes).length = two.B :=
  ⟨two_primInv, rfl, rfl⟩

/-- A change in block 0 of two, and one in block 1: the clauses after, next to and before the change. -/
theorem witness_CiphertextChangeIsLocal :
    (([1, 2, 3, 4] : Bytes).length = 2 * two.B ∧ ([1, 9, 3, 4] : Bytes).length = 2 * two.B ∧ 0 < 2 ∧
      (∀ j, j < 2 → j ≠ 0 → slice ([1, 2, 3, 4] : Bytes) (j * two.B) two.B = slice [1, 9, 3, 4] (j * two.B) two.B) ∧
      0 + 1 < 2 ∧ (2 < 0 ∨ 0 + 1 < 2)) ∧
    (([1, 2, 9, 4] : Bytes).length = 2 * two.B ∧ 1 < 2 ∧
      (∀ j, j < 2 → j ≠ 1 → slice ([1, 2, 3, 4] : Bytes) (j * two.B) two.B = slice [1, 2, 9, 4] (j * two.B) two.B) ∧
      (0 < 1 ∨ 1 + 1 < 0)) := by decide

theorem witness_ChangedBlockRecoversDifferently : two.PrimInv ∧
    ([1, 2] : Bytes).length = 1 * two.B ∧ ([1, 9] : Bytes).length = 1 * two.B ∧ 0 < 1 ∧ ([0] : Bytes).length = two.K ∧
    ([0, 0] : Bytes).length = two.B ∧
    (∀ j, j < 1 → j ≠ 0 → slice ([1, 2] : Bytes) (j * two.B) two.B = slice [1, 9] (j * two.B) two.B) ∧
    slice ([1, 2] : Bytes) (0 * two.B) two.B ≠ slice [1, 9] (0 * two.B) two.B :=
  ⟨two_primInv, by decide⟩

theorem witness_EncryptionPrefixDependence :
    (1 * two.B ≤ ([1, 2, 3] : Bytes).length ∧ 1 * two.B ≤ ([1, 2] : Bytes).length ∧
      ([1, 2, 3] : Bytes).take (1 * two.B) = ([1, 2] : Bytes).take (1 * two.B)) ∧
    two.PrimInv ∧ (1 + 1) * two.B ≤ ([1, 2, 3, 4] : Bytes).length ∧ (1 + 1) * two.B ≤ ([1, 2, 3, 5] : Bytes).length ∧
    ([0] : Bytes).length = two.K ∧ ([0, 0] : Bytes).length = two.B ∧
    ([1, 2, 3, 4] : Bytes).take (1 * two.B) = ([1, 2, 3, 5] : Bytes).take (1 * two.B) ∧
    slice ([1, 2, 3, 4] : Bytes) (1 * two.B) two.B ≠ slice [1, 2, 3, 5] (1 * two.B) two.B :=
  ⟨by decide, two_primInv, by decide⟩

-- ---------------------------------------------------------------- witnesses: the commands

/-- A last byte 0 is no valid tail. -/
theorem not_validTail_zeros (P : Params) (x : Bytes) : ¬ ValidTail P (x ++ [0]) := by
  rintro ⟨y, n, h1, h2, h⟩
  obtain ⟨m, rfl⟩ : ∃ m, n = m + 1 := ⟨n - 1, by omega⟩
  have hl := congrArg List.getLast? h
  rw [rep, List.replicate_succ', ← List.append_assoc, List.getLast?_concat, List.getLast?_concat] at hl
  have := congrArg BitVec.toNat (Option.some.inj hl)
  rw [toNat_ofNat_of_le h2] at this
  exact absurd this (by simp)

theorem witness_PadCompletes :
    (∃ (s : State) (x : Bytes), s.Holds .inp x ∧ s.inlen = x.length ∧ x.length < s.params.B) ∧
    (∃ (s : State) (x : Bytes), s.Holds .inp x ∧ s.inlen = x.length ∧ x.length = s.params.B) :=
  ⟨⟨loaded [] [] [] [], [], holds_inp _ _ _ _, rfl, P0.B_pos⟩,
   ⟨loaded (rep 0 P0.B) [] [] [], _, holds_inp _ _ _ _, rfl, rep_length ..⟩⟩

/-- The least tail, `n = 1`, and the greatest, `n = B`. -/
theorem witness_UnpadCompletes :
    (∃ (s : State) (x : Bytes), 1 ≤ 1 ∧ 1 ≤ s.params.B ∧ s.Holds .inp (x ++ rep (BitVec.ofNat 8 1) 1) ∧
      s.inlen = x.length + 1 ∧ s.inlen % s.params.B = 0) ∧
    (∃ (s : State) (x : Bytes) (n : Nat), 1 ≤ n ∧ n ≤ s.params.B ∧ n = s.params.B ∧
      s.Holds .inp (x ++ rep (BitVec.ofNat 8 n) n) ∧ s.inlen = x.length + n ∧ s.inlen % s.params.B = 0) := by
  have hB := P0.B_pos
  have h1 : (rep 7 (P0.B - 1) ++ rep (BitVec.ofNat 8 1) 1 : Bytes).length = P0.B := by simp; omega
  have h2 : ([] ++ rep (BitVec.ofNat 8 P0.B) P0.B : Bytes).length = P0.B := by simp
  refine ⟨⟨loaded (rep 7 (P0.B - 1) ++ rep (BitVec.ofNat 8 1) 1) [] [] [], rep 7 (P0.B - 1), le_refl _, hB,
      holds_inp _ _ _ _, ?_, ?_⟩,
    ⟨loaded ([] ++ rep (BitVec.ofNat 8 P0.B) P0.B) [] [] [], [], P0.B, hB, le_refl _, rfl, holds_inp _ _ _ _, ?_, ?_⟩⟩
  · simp [loaded]
  · show (rep 7 (P0.B - 1) ++ rep (BitVec.ofNat 8 1) 1).length % P0.B = 0; rw [h1, Nat.mod_self]
  · simp [loaded]
  · show ([] ++ rep (BitVec.ofNat 8 P0.B) P0.B).length % P0.B = 0; rw [h2, Nat.mod_self]

theorem witness_UnpadRejectsInvalidTail : ∃ (s : State) (y : Bytes), s.Holds .inp y ∧ s.inlen = y.length ∧ 0 < y.length ∧
    y.length % s.params.B = 0 ∧ ¬ ValidTail s.params y := by
  have hB := P0.B_pos
  have hl : (rep 7 (P0.B - 1) ++ [0] : Bytes).length = P0.B := by simp; omega
  exact ⟨loaded (rep 7 (P0.B - 1) ++ [0]) [] [] [], _, holds_inp _ _ _ _, rfl, by rw [hl]; omega,
    by rw [hl, loaded_params, Nat.mod_self], not_validTail_zeros _ _⟩

theorem witness_XorCompletes : ∃ (s : State) (a b : Bytes), s.Holds .inp a ∧ s.Holds .aux b ∧ s.inlen = a.length ∧
    s.auxlen = b.length ∧ a.length = b.length ∧ 0 < a.length :=
  ⟨loaded [1] [2] [] [], [1], [2], holds_inp _ _ _ _, holds_aux _ _ _ _, rfl, rfl, rfl, by decide⟩

theorem witness_CbcencCompletes : ∃ (s : State) (p key iv : Bytes), s.Holds .inp p ∧ s.inlen = p.length ∧ s.Holds .key key ∧
    key.length = s.params.K ∧ s.Holds .iv iv ∧ iv.length = s.params.B :=
  ⟨loaded [1] [] (rep 0 P0.K) (rep 0 P0.B), [1], _, _, holds_inp _ _ _ _, rfl, holds_key _ _ _ _, rep_length ..,
    holds_iv _ _ _ _, rep_length ..⟩

theorem witness_CbcdecCompletes : ∃ (s : State) (c key iv : Bytes), s.Holds .inp c ∧ s.inlen = c.length ∧ s.Holds .key key ∧
    key.length = s.params.K ∧ s.Holds .iv iv ∧ iv.length = s.params.B ∧ 0 < c.length ∧
    c.length % s.params.B = 0 :=
  ⟨loaded (rep 0 P0.B) [] (rep 0 P0.K) (rep 0 P0.B), rep 0 P0.B, _, _, holds_inp _ _ _ _,
    rfl, holds_key _ _ _ _, rep_length .., holds_iv _ _ _ _, rep_length .., by rw [rep_length]; exact P0.B_pos, by simp [loaded_params]⟩

theorem witness_LengthChecksFailFast :
    P0.B < (State.reset.setInlen (P0.B + 1)).inlen ∧ State.reset.inlen = 0 ∧
    (State.reset.setInlen 1).inlen ≠ (State.reset.setInlen 1).auxlen ∧
    (1 < P0.B → (State.reset.setInlen 1).inlen % P0.B ≠ 0) := by
  refine ⟨Nat.lt_succ_self _, rfl, by decide, fun h => ?_⟩
  show 1 % _ ≠ 0
  rw [Nat.mod_eq_of_lt h]; decide

/-- Every command has a next state in the state after reset. -/
theorem witness_FailureCodeTable (i : Instr) : ∃ s t : State, exec i s = .next t := ⟨State.reset, _, exec_eq_complete ..⟩
theorem witness_TraceTable (i : Instr) : ∃ s t : State, exec i s = .next t := ⟨State.reset, _, exec_eq_complete ..⟩

/-- A failure of the length check, and one of the tail of the last block. -/
theorem witness_FailureLeavesOnlyItsCode :
    (∃ s t : State, exec .unpad s = .next t ∧ t.err ≠ 0#2) ∧ (∃ s t : State, exec .unpad s = .next t ∧ t.err = 3#2) := by
  refine ⟨⟨State.reset, _, rfl, by decide⟩, ?_⟩
  have hB := P0.B_pos
  have hl : (rep 7 (P0.B - 1) ++ [0] : Bytes).length = P0.B := by simp; omega
  refine ⟨loaded (rep 7 (P0.B - 1) ++ [0]) [] [] [], _, rfl, ?_⟩
  have h : (loaded (rep 7 (P0.B - 1) ++ [0]) [] [] []).inlen = P0.B := hl
  have ho := (holds_inp (rep 7 (P0.B - 1) ++ [0]) [] [] []).inOperand rfl
  simp only [State.err, State.complete_status, errOf_statusDone, unpadRun, h, loaded_params, Nat.mod_self, ho]
  have hu : unpad P0 (rep 7 (P0.B - 1) ++ [0]) = .fail .invalidPadding := by
    rw [unpad, hl]; simp [Nat.ne_of_gt hB]
  rw [hu]; simp [Nat.ne_of_gt hB, codeOf]

/-- Two states that agree on the operands and differ in the rest. -/
theorem witness_ResultDependsOnOperandsOnly : ∃ (s s' : State) (x y key iv : Bytes), s.Holds .inp x ∧ s'.Holds .inp x ∧
    s.inlen = x.length ∧ s'.inlen = x.length ∧ s.Holds .aux y ∧ s'.Holds .aux y ∧ s.auxlen = y.length ∧
    s'.auxlen = y.length ∧ s'.params = s.params ∧ key.length = s.params.K ∧ iv.length = s.params.B ∧ s.Holds .key key ∧ s'.Holds .key key ∧
    s.Holds .iv iv ∧ s'.Holds .iv iv ∧ s ≠ s' ∧ (∀ i, ∃ t t', exec i s = .next t ∧ exec i s' = .next t') := by
  have hx := holds_inp [1] [2] (rep 0 P0.K) (rep 0 P0.B)
  have hy := holds_aux [1] [2] (rep 0 P0.K) (rep 0 P0.B)
  have hk := holds_key [1] [2] (rep 0 P0.K) (rep 0 P0.B)
  have hv := holds_iv [1] [2] (rep 0 P0.K) (rep 0 P0.B)
  refine ⟨loaded [1] [2] (rep 0 P0.K) (rep 0 P0.B),
    (loaded [1] [2] (rep 0 P0.K) (rep 0 P0.B)).issue 9, [1], [2], _, _, hx, hx, rfl, rfl, hy, hy, rfl, rfl, rfl,
    rep_length .., rep_length .., hk, hk, hv, hv, fun h => ?_, fun i => ⟨_, _, exec_eq_complete .., exec_eq_complete ..⟩⟩
  have := congrArg State.pend h
  cases this

/-- Nothing written: one byte asked for, one block, one byte of each operand, and the key and IV alone. -/
theorem witness_UnwrittenOperandsMarkTheRun :
    ((State.reset.setInlen 1).inlen ≤ P0.B ∧ (State.reset.setInlen 1).inWritten = false) ∧
    (0 < (State.reset.setInlen P0.B).inlen ∧ (State.reset.setInlen P0.B).inlen % P0.B = 0 ∧
      (State.reset.setInlen P0.B).inWritten = false ∧
      (State.reset.setInlen P0.B).cbcWritten P0 = false) ∧
    (((State.reset.setInlen 1).setAuxlen 1).inlen = ((State.reset.setInlen 1).setAuxlen 1).auxlen ∧
      ((State.reset.setInlen 1).setAuxlen 1).xorWritten = false) ∧
    State.reset.cbcWritten P0 = false := by
  have hB := P0.B_pos
  have hK := P0.K_pos
  have hw : ∀ (s : State) (sp : Space) (n : Nat), s.cells sp = [] → 1 ≤ n → s.isWritten sp n = false := by
    intro s sp n hs hn
    obtain ⟨m, rfl⟩ : ∃ m, n = m + 1 := ⟨n - 1, by omega⟩
    simp [State.isWritten, List.range_succ, hs]
  refine ⟨⟨hB, hw _ .inp _ rfl (le_refl _)⟩, ⟨hB, Nat.mod_self _, hw _ .inp _ rfl hB, ?_⟩, ⟨rfl, ?_⟩, ?_⟩
  · rw [State.cbcWritten, hw _ .key _ rfl hK, Bool.and_false, Bool.false_and]
  · exact (Bool.and_eq_false_iff).2 (.inl (hw _ .inp _ rfl (show 1 ≤ 1 from le_refl _)))
  · rw [State.cbcWritten, hw State.reset .key _ rfl hK, Bool.and_false, Bool.false_and]

-- ---------------------------------------------------------------- witnesses: the port

theorem witness_CommandIssue (w : BitVec 8) :
    (∃ s : State, s.events = .access (.wr .cmd w.toNat) :: [] ∧ s.busy = false) ∧
    (∃ s : State, s.events = .access (.wr .cmd w.toNat) :: [] ∧ s.busy = true) :=
  ⟨⟨idleWith _, rfl, idleWith_busy _⟩, ⟨busyWith 1 _, rfl, busyWith_busy _ _⟩⟩

/-- Each clause: the five registers, OUT below and at OUTLEN, and a written byte of KEY; STATUS also while busy. -/
theorem witness_ReadsReturnTheStoredValue :
    (∀ i, i < 5 → (⟨.reg, i⟩ : Loc).wf P0 = true) ∧ (idleWith [.access (.rd .cmd)]).busy = false ∧
    (busyWith 1 [.access (.rd .status)]).events = .access (.rd .status) :: [] ∧
    (∀ i, i < 2 → ∃ s : State, (⟨.out, i⟩ : Loc).wf s.params = true ∧ s.events = .access (.rd ⟨.out, i⟩) :: [] ∧
      s.busy = false ∧ s.outlen = 1) ∧
    (∃ s : State, (⟨.key, 0⟩ : Loc).wf s.params = true ∧ s.events = .access (.rd ⟨.key, 0⟩) :: [] ∧ s.busy = false ∧
      (s.cells .key).read 0 = some (BitVec.ofNat 8 7) ∧ 7 < 256) := by
  refine ⟨fun i h => Loc.wf_iff.2 h, rfl, rfl, fun i h => ⟨⟨[], [], none, 0x02#8, 0, 0, none, [], [], [5],
    [.access (.rd ⟨.out, i⟩)], [], [], 0, false, 0⟩, Loc.wf_iff.2 ?_, rfl, show busyOf 0x02#8 = false by decide, rfl⟩,
    ⟨(loaded [] [] [7] []).withEvents [.access (.rd ⟨.key, 0⟩)], Loc.wf_iff.2 P0.K_pos, rfl, rfl, rfl, by decide⟩⟩
  have := P0.NMAX_lt_OUTCAP
  have := P0.NMAX_pos
  show i < P0.OUTCAP
  omega

theorem witness_ReadOfUnwrittenByteCompletes : ∃ (s : State) (l : Loc), l.wf s.params = true ∧
    s.events = .access (.rd l) :: [] ∧ s.busy = false ∧ l.space ≠ .reg ∧ l.space ≠ .out ∧ (s.cells l.space).read l.index = none :=
  ⟨idleWith [.access (.rd ⟨.key, 0⟩)], ⟨.key, 0⟩, Loc.wf_iff.2 P0.K_pos, rfl, rfl, by decide, by decide, rfl⟩

/-- A register, a byte and a read-only location. -/
theorem witness_WriteChangesItsLocationOnly (l : Loc) (v : Nat)
    (h : (l, v) ∈ [(Loc.inlen, 1), (⟨.key, 0⟩, 255), (Loc.status, 255)]) :
    ∃ s : State, (Access.wr l v).wf s.params = true ∧ l ≠ .cmd ∧ s.busy = false ∧ s.events = .access (.wr l v) :: [] := by
  refine ⟨idleWith [.access (.wr l v)], Access.wf_wr.2 ?_, ?_, idleWith_busy _, rfl⟩
  · simp only [List.mem_cons, Prod.mk.injEq, List.not_mem_nil, or_false] at h
    rcases h with ⟨rfl, rfl⟩ | ⟨rfl, rfl⟩ | ⟨rfl, rfl⟩
    · exact ⟨show 2 < 5 by decide, P0.NMAX_pos⟩
    · exact ⟨P0.K_pos, show 255 ≤ 255 by decide⟩
    · exact ⟨show 1 < 5 by decide, show 255 ≤ 255 by decide⟩
  · rintro rfl; revert h; simp [Loc.cmd, Loc.inlen, Loc.status]

theorem witness_ReadOnlyAndWriteOnlyLocations (l : Loc) (h : l ∈ [Loc.status, Loc.outlen, ⟨.out, 0⟩]) :
    (∃ s : State, s.busy = false ∧ (Access.wr l 1).wf s.params = true ∧
      (l = .status ∨ l = .outlen ∨ l.space = .out) ∧ s.events = .access (.wr l 1) :: []) ∧
    (∃ s : State, s.busy = false ∧ s.events = .access (.rd .cmd) :: []) := by
  have := P0.NMAX_lt_OUTCAP
  have := P0.NMAX_pos
  refine ⟨⟨idleWith [.access (.wr l 1)], idleWith_busy _, Access.wf_wr.2 ?_, ?_, rfl⟩, ⟨idleWith _, rfl, rfl⟩⟩
  · simp only [List.mem_cons, List.not_mem_nil, or_false] at h
    rcases h with rfl | rfl | rfl
    · exact ⟨show 1 < 5 by decide, show 1 ≤ 255 by decide⟩
    · exact ⟨show 4 < 5 by decide, show 1 ≤ P0.OUTCAP by omega⟩
    · exact ⟨show 0 < P0.OUTCAP by omega, show 1 ≤ 255 by decide⟩
  · simp only [List.mem_cons, List.not_mem_nil, or_false] at h
    rcases h with rfl | rfl | rfl <;> simp

theorem witness_AccessesAreIdempotent :
    (∃ (s : State) (l : Loc) (v : Nat), l ≠ .cmd ∧ (Access.wr l v).wf s.params = true ∧ s.busy = false ∧
      s.events = .access (.wr l v) :: .access (.wr l v) :: []) ∧
    (∃ (s : State) (l : Loc), l.wf s.params = true ∧ s.busy = false ∧ (s.readLoc l).isSome = true ∧
      s.events = .access (.rd l) :: .access (.rd l) :: []) :=
  ⟨⟨idleWith _, .inlen, 1, by decide, Access.wf_wr.2 ⟨show 2 < 5 by decide, P0.NMAX_pos⟩, rfl, rfl⟩,
   ⟨idleWith _, .outlen, Loc.wf_iff.2 (show 4 < 5 by decide), rfl, rfl, rfl⟩⟩

theorem witness_AccessesAreHeldWhileBusy (a : Access) : ∃ s : State, s.Inv s.params ∧ s.busy = true ∧
    s.events = .access a :: [] :=
  ⟨busyWith 4 _, busyWith_inv .., busyWith_busy _ _, rfl⟩

/-- One location for each clause: a byte of each writable space, the writable registers, and the read-only locations. -/
theorem witness_HeldWriteTakesEffectAfterCompletion (l : Loc)
    (h : l ∈ [⟨.key, 0⟩, ⟨.iv, 0⟩, ⟨.inp, 0⟩, ⟨.aux, 0⟩, .inlen, .auxlen, .cmd, .status, .outlen, ⟨.out, 0⟩]) :
    ∃ s : State, s.Inv s.params ∧ s.busy = true ∧ (Access.wr l 1).wf s.params = true ∧ s.events = .access (.wr l 1) :: [] := by
  refine ⟨busyWith 1 _, busyWith_inv .., busyWith_busy _ _, Access.wf_wr.2 ?_, rfl⟩
  have hN := P0.NMAX_pos
  have hO := P0.NMAX_lt_OUTCAP
  have h1 : 1 ≤ 255 := by decide
  simp only [List.mem_cons, List.not_mem_nil, or_false] at h
  rcases h with rfl | rfl | rfl | rfl | rfl | rfl | rfl | rfl | rfl | rfl
  · exact ⟨P0.K_pos, h1⟩
  · exact ⟨P0.B_pos, h1⟩
  · exact ⟨hN, h1⟩
  · exact ⟨hN, h1⟩
  · exact ⟨show 2 < 5 by decide, hN⟩
  · exact ⟨show 3 < 5 by decide, hN⟩
  · exact ⟨show 0 < 5 by decide, h1⟩
  · exact ⟨show 1 < 5 by decide, h1⟩
  · exact ⟨show 4 < 5 by decide, show 1 ≤ P0.OUTCAP by omega⟩
  · exact ⟨show 0 < P0.OUTCAP by omega, h1⟩

/-- Register 5 is no location; 256 does not fit CMD. -/
theorem witness_AccessToNoLocationStops :
    (∃ s : State, s.busy = false ∧ (⟨.reg, 5⟩ : Loc).wf s.params = false ∧ s.events = .access (.rd ⟨.reg, 5⟩) :: []) ∧
    (∃ s : State, s.busy = false ∧ (⟨.reg, 5⟩ : Loc).wf s.params = false ∧ s.events = .access (.wr ⟨.reg, 5⟩ 0) :: []) ∧
    (∃ s : State, s.busy = false ∧ Loc.cmd.wf s.params = true ∧ Loc.cmd.maxValue s.params < 256 ∧
      s.events = .access (.wr .cmd 256) :: []) :=
  ⟨⟨idleWith _, rfl, rfl, rfl⟩, ⟨idleWith _, rfl, rfl, rfl⟩,
   ⟨idleWith _, rfl, Loc.wf_iff.2 (show 0 < 5 by decide), show 255 < 256 by decide, rfl⟩⟩

/-- The empty literal and one of one byte. -/
theorem witness_LdinLoadsTheOperand (x : Bytes) (h : x = [] ∨ x = [0x41]) : ∃ (s : State) (ops : List Access),
    s.busy = false ∧ Script.ldin s.params x = some ops ∧ s.events = ops.map Event.access ++ [] := by
  have hl : x.length ≤ P0.NMAX := by
    have := P0.NMAX_pos
    rcases h with rfl | rfl <;> simp; omega
  have hs : Script.ldin P0 x = some (Script.loadFrom .inp 0 x ++ [.wr .inlen x.length]) := by rw [Script.ldin, if_pos hl]
  exact ⟨idleWith _, _, idleWith_busy _, hs, rfl⟩

-- ---------------------------------------------------------------- witnesses: the machine

/-- A state that keeps the invariants and has a next state: idle, and busy. -/
theorem witness_StepKeepsInvariants :
    (∃ s t : State, s.Inv s.params ∧ step s = .next t) ∧
    (∃ s t : State, s.Inv s.params ∧ s.busy = true ∧ step s = .next t) :=
  ⟨⟨State.reset, _, reset_inv, rfl⟩, ⟨busyWith 1 [.engine], _, busyWith_inv .., rfl, rfl⟩⟩

/-- A state with one record in its trace. -/
theorem witness_StepKeepsPrimitiveArgumentLengths : ∃ s t : State, s.TraceInv s.params ∧ s.trace ≠ [] ∧ step s = .next t := by
  refine ⟨{ State.reset with trace := [⟨.enc, rep 0 P0.B, rep 0 P0.K⟩] }, _, ?_, by simp, rfl⟩
  intro c hc
  simp only [List.mem_singleton] at hc
  subst hc
  exact ⟨rep_length .., rep_length ..⟩

/-- A command in progress that completes, and the first CMD write after reset. -/
theorem witness_IdleWithoutResultOnlyBeforeFirstCommand :
    (∃ s t : State, s.Inv s.params ∧ step s = .next t ∧ s.busy = true) ∧
    (∃ s t : State, s.Inv s.params ∧ step s = .next t ∧ s.busy = false ∧ s.isDone = false ∧ t.busy = true) := by
  refine ⟨⟨busyWith 1 [.engine], _, busyWith_inv .., rfl, rfl⟩,
    ⟨idleWith [.access (.wr .cmd 1)], (idleWith []).doAccess (.wr .cmd 1), ⟨reset_inv.busy, reset_inv.idle, reset_inv.err,
      reset_inv.range, reset_inv.mem⟩, step_idleWith (Access.wf_wr_cmd P0 1), rfl, rfl, rfl⟩⟩

/-- The three schedules, for every command and for a word malformed by `RSV` and one by `OP`. -/
theorem witness_StepRunsTheDecodedCommand :
    (∀ i : Instr, decode (encode i) = .command i) ∧ decode 0x83#8 = .malformed .reservedBits ∧
    decode 0x06#8 = .malformed .reservedOp ∧ Access.rd .outlen ≠ .rd .status ∧
    (∀ (w : BitVec 8) (es : List Event), (busyWith w es).busy = true ∧ (busyWith w es).pend = some w ∧
      (busyWith w es).events = es) :=
  ⟨fun i => by cases i <;> decide, by decide, by decide, by decide, fun w es => ⟨busyWith_busy w es, rfl, rfl⟩⟩

/-- Malformed by `RSV` and by `OP`. -/
theorem witness_MalformedWordFails (w : BitVec 8) (h : w ∈ [0x83#8, 0x00#8, 0x06#8, 0x07#8]) :
    (∃ s : State, s.pend = some w) ∧
    (fieldRSV w ≠ 0#5 ∨ fieldOP w = 0#3 ∨ fieldOP w = 6#3 ∨ fieldOP w = 7#3) ∧
    (∃ s : State, s.busy = false ∧ s.events = .access (.wr .cmd w.toNat) :: []) := by
  refine ⟨⟨busyWith w [], rfl⟩, ?_, ⟨idleWith _, idleWith_busy _, rfl⟩⟩
  revert w; decide

theorem witness_StatusTakesSixValues :
    State.reset.Inv P0 ∧ State.reset.status = 0x00#8 ∧ (busyWith 1 []).Inv P0 ∧
      (busyWith 1 []).status = 0x01#8 :=
  ⟨reset_inv, rfl, busyWith_inv .., by decide⟩

theorem witness_BusyInstanceCompletes (w : BitVec 8) :
    (∃ s : State, s.Inv s.params ∧ s.busy = true ∧ s.events = []) ∧
    (∃ s : State, s.Inv s.params ∧ s.busy = true ∧ ∃ es, s.events = .engine :: es) :=
  ⟨⟨busyWith w [], busyWith_inv .., busyWith_busy _ _, rfl⟩, ⟨busyWith w [.engine], busyWith_inv .., busyWith_busy _ _, [], rfl⟩⟩

/-- Steps that change a byte, INLEN and AUXLEN. -/
theorem witness_OperandsChangeOnlyByHostOrReset :
    (∃ s t : State, step s = .next t ∧ (t.cells .key).read 0 ≠ (s.cells .key).read 0) ∧
    (∃ s t : State, step s = .next t ∧ t.inlen ≠ s.inlen) ∧ (∃ s t : State, step s = .next t ∧ t.auxlen ≠ s.auxlen) := by
  have hk : (Access.wr ⟨.key, 0⟩ 7).wf P0 = true :=
    Access.wf_wr.2 ⟨P0.K_pos, show 7 ≤ 255 by decide⟩
  have hi : (Access.wr .inlen 1).wf P0 = true :=
    Access.wf_wr.2 ⟨show 2 < 5 by decide, show 1 ≤ P0.NMAX from P0.NMAX_pos⟩
  have ha : (Access.wr .auxlen 1).wf P0 = true :=
    Access.wf_wr.2 ⟨show 3 < 5 by decide, show 1 ≤ P0.NMAX from P0.NMAX_pos⟩
  exact ⟨⟨idleWith _, _, step_idleWith (es := []) hk, by decide⟩, ⟨idleWith _, _, step_idleWith (es := []) hi, by decide⟩,
    ⟨idleWith _, _, step_idleWith (es := []) ha, by decide⟩⟩

theorem witness_ResultStaysUntilNextCommand : ∃ s t : State, s.busy = false ∧ step s = .next t :=
  ⟨State.reset, _, rfl, rfl⟩

/-- RESET while idle, while CBCENC is in progress, and while a malformed word is. -/
theorem witness_ResetEvent :
    (∃ s : State, s.events = .reset :: [] ∧ s.busy = false) ∧
    (∀ w ∈ [0x04#8, 0x83#8], ∃ s u : State, s.events = .reset :: [] ∧ s.busy = true ∧ s.pend = some w ∧
      engineStep s = .next u) :=
  ⟨⟨idleWith _, rfl, rfl⟩, fun w _ => ⟨busyWith w _, _, rfl, busyWith_busy w _, rfl, engineStep_of_pend rfl⟩⟩

/-- Two instances after reset, the first of which steps. -/
theorem witness_InstancesStayDistinctCopies : ∃ ss ts : List State, distinctCopies ss ∧ ss.length = 2 ∧
    stepInstance ss 0 = .next ts :=
  ⟨instancesAtReset 2, _, show ([0, 1] : List Nat).Nodup by decide, rfl, rfl⟩

theorem witness_InstancesShareNothing : ∃ (ss ts : List State) (i j : Nat) (s : State), stepInstance ss i = .next ts ∧ j ≠ i ∧
    ss[i]? = some s :=
  ⟨[State.reset, State.reset], _, 0, 1, _, rfl, by decide, rfl⟩

end Sys2Proof.Machine.Tests
end

section
/-! SUPPORT. What the shared operations of the machine can do, said once for the proofs about the state
(spec/10_state.md R25 to R38): the flags after issue and completion, the cases of a port access, and one equation for each
way a step can go. -/

namespace Sys2Proof.Machine

-- ---------------------------------------------------------------- STATUS

/-- A STATUS word whose reserved bits are zero is made of its three fields (R25). -/
theorem eq_statusWord_of_reservedOf {st : BitVec 8} (h : reservedOf st = 0#4) :
    st = statusWord (busyOf st) (doneOf st) (errOf st) := by
  revert st; decide

theorem State.busy_congr {s t : State} (h : t.status = s.status) : t.busy = s.busy := congrArg busyOf h
theorem State.isDone_congr {s t : State} (h : t.status = s.status) : t.isDone = s.isDone := congrArg doneOf h

@[simp] theorem State.issue_busy (s : State) (w : BitVec 8) : (s.issue w).busy = true := busyOf_statusBusy
@[simp] theorem State.issue_isDone (s : State) (w : BitVec 8) : (s.issue w).isDone = false := doneOf_statusBusy
@[simp] theorem State.issue_err (s : State) (w : BitVec 8) : (s.issue w).err = 0#2 := errOf_statusBusy
@[simp] theorem State.issue_outlen (s : State) (w : BitVec 8) : (s.issue w).outlen = 0 := rfl

@[simp] theorem State.complete_busy (s : State) (r : Run) : (s.complete r).busy = false := busyOf_statusDone _
@[simp] theorem State.complete_isDone (s : State) (r : Run) : (s.complete r).isDone = true := doneOf_statusDone _
@[simp] theorem State.complete_err (s : State) (r : Run) : (s.complete r).err = errCode r.result := errOf_statusDone _
@[simp] theorem State.complete_outlen (s : State) (r : Run) :
    (s.complete r).outlen = (outputOf r.result).length := rfl

@[simp] theorem State.reset_busy : State.reset.busy = false := by decide
@[simp] theorem State.reset_isDone : State.reset.isDone = false := by decide
@[simp] theorem State.reset_err : State.reset.err = 0#2 := by decide

@[simp] theorem State.doReset_busy (P : Params) (s : State) : (s.doReset P).busy = false := State.reset_busy
@[simp] theorem State.doReset_isDone (P : Params) (s : State) : (s.doReset P).isDone = false := State.reset_isDone

-- ---------------------------------------------------------------- completion

/-- Completion leaves what R30 says. -/
theorem State.completedWith_complete (s : State) (r : Run) : s.CompletedWith (s.complete r) r.result r.calls where
  out := rfl
  outlen := rfl
  busy := s.complete_busy r
  done := s.complete_isDone r
  err := s.complete_err r
  reserved := reservedOf_statusDone _
  chain := rfl
  pend := rfl
  trace := rfl
  operands := ⟨rfl, rfl, rfl, rfl, rfl, rfl⟩
  host := ⟨rfl, rfl⟩
  copy := rfl

/-- A run that drew no free value leaves the counter and the mark as they were. -/
theorem State.noDraw_complete (s : State) {r : Run} (h : r.drew = false) : s.NoDraw (s.complete r) := by
  simp [State.NoDraw, h]

/-- A failing result gives a failure code and no output (R30, all or nothing). -/
theorem outputOf_eq_nil_of_errCode {r : Result} (h : errCode r ≠ 0#2) : outputOf r = [] := by
  cases r with
  | ok v => exact absurd rfl h
  | fail f => rfl

-- ---------------------------------------------------------------- port accesses

/-- The two outcomes of a completed read: the stored value, or a fresh free value at an unwritten byte. -/
theorem State.doRead_cases (s : State) (l : Loc) :
    (∃ v, s.readLoc l = some v ∧ s.doRead l = s.reply l v) ∨
    (∃ v, s.readLoc l = none ∧ s.doRead l = (s.reply l v).spend) := by
  cases h : s.readLoc l with
  | some v => exact .inl ⟨v, rfl, by simp [State.doRead, h]⟩
  | none => exact .inr ⟨_, rfl, by simp [State.doRead, h]; rfl⟩

/-- Everything a completed write can be (R45, R46). -/
theorem State.doWrite_cases (s : State) (l : Loc) (v : Nat) :
    (l = .cmd ∧ s.doWrite l v = s.issue (BitVec.ofNat 8 v)) ∨
    (l = .inlen ∧ s.doWrite l v = s.setInlen v) ∨
    (l = .auxlen ∧ s.doWrite l v = s.setAuxlen v) ∨
    (l.space ≠ .reg ∧ l.space ≠ .out ∧ s.doWrite l v = s.storeByte l.space l.index (BitVec.ofNat 8 v)) ∨
    ((l.space = .reg ∨ l.space = .out) ∧ l ≠ .cmd ∧ l ≠ .inlen ∧ l ≠ .auxlen ∧ s.doWrite l v = s) := by
  obtain ⟨sp, i⟩ := l
  cases sp with
  | reg =>
    rcases i with _ | _ | _ | _ | i
    · exact .inl ⟨rfl, rfl⟩
    · exact .inr (.inr (.inr (.inr ⟨.inl rfl, by simp, by simp, by simp, rfl⟩)))
    · exact .inr (.inl ⟨rfl, rfl⟩)
    · exact .inr (.inr (.inl ⟨rfl, rfl⟩))
    · exact .inr (.inr (.inr (.inr ⟨.inl rfl, by simp, by simp, by simp, rfl⟩)))
  | out => exact .inr (.inr (.inr (.inr ⟨.inr rfl, by simp, by simp, by simp, rfl⟩)))
  | key | iv | inp | aux => exact .inr (.inr (.inr (.inl ⟨by simp, by simp, rfl⟩)))

/-- No access but a CMD write changes STATUS. -/
theorem State.doAccess_status (s : State) (a : Access) :
    (∃ v, a = .wr .cmd v ∧ s.doAccess a = s.issue (BitVec.ofNat 8 v)) ∨ (s.doAccess a).status = s.status := by
  cases a with
  | rd l =>
    rcases s.doRead_cases l with ⟨v, -, h⟩ | ⟨v, -, h⟩ <;> exact .inr (by simp [State.doAccess, h])
  | wr l v =>
    simp only [State.doAccess]
    rcases s.doWrite_cases l v with ⟨rfl, h⟩ | ⟨-, h⟩ | ⟨-, h⟩ | ⟨-, -, h⟩ | ⟨-, -, -, -, h⟩
    · exact .inl ⟨v, rfl, h⟩
    all_goals exact .inr (by simp [h])

/-- An access that is not held and is not the read of STATUS finds BUSY = 0 (R47). -/
theorem State.busy_of_not_holds {s : State} {a : Access} (h : s.holds a = false) (ha : a ≠ .rd .status) :
    s.busy = false := by
  simpa [State.holds, ha] using h

-- ---------------------------------------------------------------- the ways a step can go

theorem step_nil_of_busy {s : State} (he : s.events = []) (hb : s.busy = true) : step s = engineStep s := by
  simp [step, he, hb]

theorem step_engine_of_busy {s : State} {es : List Event} (he : s.events = .engine :: es) (hb : s.busy = true) :
    step s = engineStep (s.withEvents es) := by
  simp [step, he, hb]

/-- A held access lets the ENGINE move (log entry 6). -/
theorem step_access_of_busy {s : State} {a : Access} {es : List Event} (he : s.events = .access a :: es)
    (hb : s.busy = true) (ha : a ≠ .rd .status) : step s = engineStep s := by
  simp [step, he, State.holds, hb, ha]

/-- With BUSY = 0 a well-formed access completes. -/
theorem step_access_of_idle {s : State} {a : Access} {es : List Event} (he : s.events = .access a :: es)
    (hb : s.busy = false) (hw : a.wf s.params = true) : step s = .next ((s.withEvents es).doAccess a) := by
  simp [step, he, State.holds, hb, hostAccess_of_wf _ hw]

theorem engineStep_of_command {s : State} {w : BitVec 8} {i : Instr} (hp : s.pend = some w)
    (hd : decode w = .command i) : engineStep s = exec i s := by
  simp [engineStep, hp, hd]

theorem engineStep_of_malformed {s : State} {w : BitVec 8} {m : Malformed} (hp : s.pend = some w)
    (hd : decode w = .malformed m) : engineStep s = .next (s.complete (.rejected .invalidInput)) := by
  simp [engineStep, hp, hd, execMalformed]

/-- The ENGINE completes a malformed word with InvalidInput, having read and drawn nothing (spec/30_encoding.md R64). -/
theorem engineStep_malformed_completes {s : State} {w : BitVec 8} {m : Malformed} (hp : s.pend = some w)
    (hd : decode w = .malformed m) :
    ∃ t, engineStep s = .next t ∧ s.CompletedWith t (.fail .invalidInput) [] ∧ s.NoDraw t :=
  ⟨_, engineStep_of_malformed hp hd, s.completedWith_complete _, s.noDraw_complete rfl⟩

end Sys2Proof.Machine
end

section
/-! SUPPORT. Every command's output is shorter than its operand padded to the next block boundary, so it fits in OUT
(spec/00_scope.md R6, spec/10_state.md R37 (e)). -/

namespace Sys2Proof.Machine

/-- A length is below the next block boundary above it. -/
theorem lt_paddedLength (P : Params) (n : Nat) : n < (n / P.B + 1) * P.B := by
  rw [Nat.mul_comm]; exact Nat.lt_mul_div_succ n P.B_pos

theorem paddedLength_le_OUTCAP {P : Params} {n : Nat} (h : n ≤ P.NMAX) : (n / P.B + 1) * P.B ≤ P.OUTCAP :=
  Nat.mul_le_mul_right _ (Nat.succ_le_succ (Nat.div_le_div_right h))

theorem outputOf_pad_length {P : Params} {x : Bytes} (h : x.length ≤ P.B) :
    (outputOf (pad P x)).length = (x.length / P.B + 1) * P.B := by
  rcases Nat.lt_or_eq_of_le h with hlt | heq
  · rw [pad_of_lt hlt, Nat.div_eq_of_lt hlt]
    simp [outputOf, h]
  · rw [pad_of_eq heq, heq, Nat.div_self P.B_pos]
    simp [outputOf, heq, Nat.two_mul]

/-- The length of a ciphertext (spec/42_cbc.md R103). -/
theorem cbcEncrypt_length (P : Params) (p key iv : Bytes) :
    (cbcEncrypt P p key iv).length = (p.length / P.B + 1) * P.B := by
  have hB : ∀ x ∈ (encFold P key iv (encInputs P p)).map Prod.snd, x.length = P.B := fun x hx => by
    obtain ⟨r, hr, rfl⟩ := List.mem_map.1 hx
    exact length_of_mem_encFold hr
  rw [cbcEncrypt, length_flatten_of_forall hB]
  simp [encInputs]

/-- The codec never makes the last block longer (R106). -/
theorem outputOf_unpadLast_length (P : Params) (Rs : List Bytes) :
    (outputOf (unpadLast P Rs)).length ≤ Rs.flatten.length := by
  rcases List.eq_nil_or_concat Rs with rfl | ⟨Rs, R, rfl⟩
  · exact Nat.zero_le _
  · have hR := unpad_output_length P R
    rw [List.concat_eq_append, unpadLast_append]
    cases hu : unpad P R with
    | ok v => simpa [outputOf, hu] using hR
    | fail f => exact Nat.zero_le _

/-- The recovered blocks together are no longer than one block of `B` bytes for each ciphertext block. -/
theorem flatten_decFold_length_le (P : Params) (key chain : Bytes) (Cs : List Bytes) :
    (decFold P key chain Cs).flatten.length ≤ Cs.length * P.B := by
  induction Cs generalizing chain with
  | nil => exact Nat.zero_le _
  | cons C Cs ih =>
    have hC : (xorBytes (P.D C key) chain).length ≤ P.B := by simp
    rw [decFold_cons, List.flatten_cons, List.length_append, List.length_cons, Nat.add_mul, Nat.one_mul, Nat.add_comm]
    exact Nat.add_le_add (ih C) hC

theorem outputOf_cbcDecrypt_length (P : Params) (c key iv : Bytes) :
    (outputOf (cbcDecrypt P c key iv)).length ≤ c.length := by
  rw [cbcDecrypt]
  split
  · exact Nat.zero_le _
  · calc (outputOf (unpadLast P (decFold P key iv (blocks P.B c (c.length / P.B))))).length
        ≤ (decFold P key iv (blocks P.B c (c.length / P.B))).flatten.length := outputOf_unpadLast_length P _
      _ ≤ (blocks P.B c (c.length / P.B)).length * P.B := flatten_decFold_length_le P key iv _
      _ ≤ c.length := by rw [blocks_length]; exact Nat.div_mul_le_self _ _

/-- The exclusive-or of two sequences is no longer than the first. -/
theorem outputOf_xorSeq_length (a b : Bytes) : (outputOf (xorSeq a b)).length ≤ a.length := by
  rw [xorSeq]
  split
  · exact Nat.zero_le _
  · simp [outputOf]

/-- One bound for every command: the operand's length padded to the next block boundary. -/
theorem outputOf_runOf_length_le (P : Params) (i : Instr) (s : State) :
    (outputOf (runOf P i s).result).length ≤ (s.inlen / P.B + 1) * P.B := by
  have hlt := Nat.le_of_lt (lt_paddedLength P s.inlen)
  cases i with
  | pad =>
    rw [runOf, padRun]
    split
    · exact Nat.zero_le _
    · rw [outputOf_pad_length (by rw [State.inOperand_length]; omega), State.inOperand_length]
  | unpad =>
    rw [runOf, unpadRun]
    split
    · exact Nat.zero_le _
    · exact Nat.le_trans (by simpa using unpad_output_length P s.inOperand) hlt
  | xor =>
    rw [runOf, xorRun]
    split
    · exact Nat.zero_le _
    · exact Nat.le_trans (by simpa using outputOf_xorSeq_length s.inOperand s.auxOperand) hlt
  | cbcenc =>
    rw [runOf, cbcencRun, outputOf, cbcEncrypt_length, State.inOperand_length]
  | cbcdec =>
    rw [runOf, cbcdecRun]
    split
    · exact Nat.zero_le _
    · exact Nat.le_trans (by simpa using outputOf_cbcDecrypt_length P s.inOperand (s.keyOperand P) (s.ivOperand P)) hlt

/-- What completes any word, malformed ones included, fits in OUT while INLEN is in range. -/
theorem outputOf_wordRun_length_le {P : Params} (w : BitVec 8) {s : State} (h : s.inlen ≤ P.NMAX) :
    (outputOf (wordRun P w s).result).length ≤ P.OUTCAP := by
  rw [wordRun]
  cases decode w with
  | command i => exact Nat.le_trans (outputOf_runOf_length_le P i s) (paddedLength_le_OUTCAP h)
  | malformed m => exact Nat.zero_le _

end Sys2Proof.Machine
end

section
/-! SUPPORT. Each operation a step is made of keeps the invariants of spec/10_state.md R37. -/

namespace Sys2Proof.Machine

/-- The reset state meets the invariants, whatever the parameters (R38). -/
theorem State.inv_reset (P : Params) : State.reset.Inv P where
  busy := fun h => absurd h (by simp)
  idle := fun _ => ⟨rfl, rfl⟩
  err := fun h => absurd State.reset_err h
  range := ⟨Nat.zero_le _, rfl, Nat.zero_le _, Nat.zero_le _⟩
  mem := fun sp => by rw [State.reset_cells]; exact ⟨rfl, rfl⟩

/-- The invariants speak of the fields of R20 to R38 only: not of the inputs, the observations, or the copy. -/
theorem State.Inv.of_eq {P : Params} {s t : State} (h : s.Inv P) (hst : t.status = s.status) (hp : t.pend = s.pend)
    (hc : t.chain = s.chain) (ho : t.out = s.out) (hi : t.inlen = s.inlen) (ha : t.auxlen = s.auxlen)
    (hm : ∀ sp, t.cells sp = s.cells sp) : t.Inv P where
  busy := by simpa [State.BusyInv, State.busy, State.isDone, State.err, State.outlen, hst, hp, ho] using h.busy
  idle := by simpa [State.IdleInv, State.busy, hst, hp, hc] using h.idle
  err := by simpa [State.ErrInv, State.isDone, State.err, State.outlen, hst, ho] using h.err
  range := by simpa [State.RangeInv, State.outlen, hst, ho, hi, ha] using h.range
  mem := fun sp => by rw [hm]; exact h.mem sp

theorem State.inv_doReset (P P' : Params) (s : State) : (s.doReset P').Inv P :=
  (State.inv_reset P).of_eq rfl rfl rfl rfl rfl rfl (by simp)

section
variable {P : Params} {s : State}

theorem State.Inv.withEvents (h : s.Inv P) (es : List Event) : (s.withEvents es).Inv P :=
  h.of_eq rfl rfl rfl rfl rfl rfl (by simp)

/-- Issue sets BUSY with the word latched and everything of the last result cleared (R29, R37 (a)). -/
theorem State.Inv.issue (h : s.Inv P) (w : BitVec 8) : (s.issue w).Inv P where
  busy := fun _ => ⟨s.issue_isDone w, s.issue_err w, rfl, rfl⟩
  idle := fun hb => absurd (s.issue_busy w) (by simp [hb])
  err := fun he => absurd (s.issue_err w) he
  range := ⟨Nat.zero_le _, reservedOf_statusBusy, h.range.2.2⟩
  mem := fun sp => by rw [State.issue_cells]; exact h.mem sp

/-- Completion with a result that fits in OUT (R30, R37 (b), (c), (e)). -/
theorem State.Inv.complete (h : s.Inv P) {r : Run} (hr : (outputOf r.result).length ≤ P.OUTCAP) :
    (s.complete r).Inv P where
  busy := fun hb => absurd (s.complete_busy r) (by simp [hb])
  idle := fun _ => ⟨rfl, rfl⟩
  err := fun he => ⟨s.complete_isDone r, by
    rw [State.complete_err] at he
    rw [State.complete_outlen, outputOf_eq_nil_of_errCode he, List.length_nil]⟩
  range := ⟨hr, reservedOf_statusDone _, h.range.2.2⟩
  mem := fun sp => by rw [State.complete_cells]; exact h.mem sp

theorem State.Inv.setInlen (h : s.Inv P) {n : Nat} (hn : n ≤ P.NMAX) : (s.setInlen n).Inv P where
  busy := h.busy
  idle := h.idle
  err := h.err
  range := ⟨h.range.1, h.range.2.1, hn, h.range.2.2.2⟩
  mem := fun sp => by rw [State.setInlen_cells]; exact h.mem sp

theorem State.Inv.setAuxlen (h : s.Inv P) {n : Nat} (hn : n ≤ P.NMAX) : (s.setAuxlen n).Inv P where
  busy := h.busy
  idle := h.idle
  err := h.err
  range := ⟨h.range.1, h.range.2.1, h.range.2.2.1, hn⟩
  mem := fun sp => by rw [State.setAuxlen_cells]; exact h.mem sp

/-- A byte stored inside its space keeps the cells canonical and inside their spaces (spec/20_memory.md R41). -/
theorem State.MemInv.storeByte (h : s.MemInv P) {sp : Space} {i : Nat} (b : Byte) (hr : sp ≠ .reg) (ho : sp ≠ .out)
    (hi : i < sp.size P) : (s.storeByte sp i b).MemInv P := by
  intro sp'
  obtain ⟨hwf, hbelow⟩ := h sp
  rw [State.storeByte_cells s sp sp' i b hr ho]
  split
  · subst sp'; exact ⟨Memory.wf_write i b hwf, Memory.below_write b hbelow hi⟩
  · exact h sp'

theorem State.Inv.storeByte (h : s.Inv P) {sp : Space} {i : Nat} (b : Byte) (hr : sp ≠ .reg) (ho : sp ≠ .out)
    (hi : i < sp.size P) : (s.storeByte sp i b).Inv P where
  busy := by simpa [State.BusyInv, State.busy, State.isDone, State.err, State.outlen] using h.busy
  idle := by simpa [State.IdleInv, State.busy] using h.idle
  err := by simpa [State.ErrInv, State.isDone, State.err, State.outlen] using h.err
  range := by simpa [State.RangeInv, State.outlen] using h.range
  mem := h.mem.storeByte b hr ho hi

/-- A read changes nothing the invariants speak of (spec/20_memory.md R44). -/
theorem State.Inv.doRead (h : s.Inv P) (l : Loc) : (s.doRead l).Inv P := by
  rcases s.doRead_cases l with ⟨v, -, hd⟩ | ⟨v, -, hd⟩
  all_goals rw [hd]; exact h.of_eq rfl rfl rfl rfl rfl rfl (by simp)

/-- A write of a value of its location's width keeps the invariants (R45). -/
theorem State.Inv.doWrite (h : s.Inv P) {l : Loc} {v : Nat} (hw : (Access.wr l v).wf P = true) :
    (s.doWrite l v).Inv P := by
  obtain ⟨hi, hv⟩ := Access.wf_wr.1 hw
  rcases s.doWrite_cases l v with ⟨-, hd⟩ | ⟨rfl, hd⟩ | ⟨rfl, hd⟩ | ⟨hr, ho, hd⟩ | ⟨-, -, -, -, hd⟩ <;> rw [hd]
  · exact h.issue _
  · exact h.setInlen hv
  · exact h.setAuxlen hv
  · exact h.storeByte _ hr ho hi
  · exact h

theorem State.Inv.doAccess (h : s.Inv P) {a : Access} (hw : a.wf P = true) : (s.doAccess a).Inv P := by
  cases a with
  | rd l => exact h.doRead l
  | wr l v => exact h.doWrite hw

/-- The ENGINE's completion of any word keeps the invariants. -/
theorem State.Inv.complete_wordRun (h : s.Inv P) (w : BitVec 8) : (s.complete (wordRun P w s)).Inv P := by
  obtain ⟨-, -, hin, -⟩ := h.range
  exact h.complete (outputOf_wordRun_length_le w hin)

end

/-- Settles O47, one case for each way a step can go. -/
theorem stepKeepsInvariants : Obligations.StepKeepsInvariants := by
  intro s t h hstep
  rw [step_params hstep]
  rcases step_next hstep with ⟨-, rfl, -⟩ | ⟨-, es, w, -, -, rfl⟩ | ⟨es, -, rfl⟩ | ⟨a, es, -, -, hw, rfl⟩
  · exact h.withEvents _
  · exact (h.withEvents es).complete_wordRun w
  · exact State.inv_doReset _ _ _
  · exact (h.withEvents es).doAccess hw

/-- Settles O46. -/
theorem resetMeetsInvariants : Obligations.ResetMeetsInvariants := fun c =>
  ⟨(State.inv_reset (Config.params c)).of_eq rfl rfl rfl rfl rfl rfl fun sp => by cases sp <;> rfl,
   fun _ hmem => absurd hmem List.not_mem_nil⟩

/-- Settles O49: BUSY alone, or DONE with any code, or neither, by R37 (a), (c) and (f). -/
theorem statusTakesSixValues : Obligations.StatusTakesSixValues := by
  intro s h
  obtain ⟨-, hres, -, -⟩ := h.range
  have hst : s.status = statusWord s.busy s.isDone s.err := eq_statusWord_of_reservedOf hres
  cases hb : s.busy with
  | true =>
    obtain ⟨hd, he, -, -⟩ := h.busy hb
    rw [hb, hd, he] at hst
    exact .inr (.inl hst)
  | false =>
    cases hd : s.isDone with
    | true =>
      rw [hb, hd] at hst
      rw [hst]
      generalize s.err = e
      revert e; decide
    | false =>
      have he : s.err = 0#2 := by
        by_contra hne
        exact absurd (h.err hne).1 (by simp [hd])
      rw [hb, hd, he] at hst
      exact .inl hst

end Sys2Proof.Machine
end

section
/-! SUPPORT. The statements about what a step does and leaves unchanged of the state (spec/10_state.md R20 to R38). -/

namespace Sys2Proof.Machine

/-- Settles O29: every command is completion, which touches STATUS, OUTLEN and OUT only. -/
theorem everyCommandCompletesAndKeepsItsFrame : Obligations.EveryCommandCompletesAndKeepsItsFrame := by
  intro i s
  refine ⟨_, exec_eq_complete i s, ⟨_, _, s.completedWith_complete _⟩, ?cells, ?registers, ?bytes, ?beyondOutlen⟩
  case cells => intro sp j; rw [State.complete_cells]
  case registers =>
    rintro ⟨sp, n⟩ rfl hn hne
    match n with
    | 0 => rfl
    | 1 => exact absurd rfl hne
    | 2 => rfl
    | 3 => rfl
    | n + 4 => exact absurd hn (Nat.not_lt.2 (Nat.le_add_left 4 n))
  case bytes =>
    rintro ⟨sp, n⟩ ho hr
    cases sp with
    | reg => exact absurd rfl hr
    | out => exact absurd rfl ho
    | key | iv | inp | aux => rfl
  case beyondOutlen =>
    intro j hj
    have hout : (outputOf (runOf s.params i s).result).length ≤ j := hj
    simp [State.readLoc, hout]

/-- Settles O50: completion sets DONE, a CMD write sets BUSY, and no other step but RESET changes STATUS. -/
theorem idleWithoutResultOnlyBeforeFirstCommand : Obligations.IdleWithoutResultOnlyBeforeFirstCommand := by
  intro s t _ hstep
  have unchanged (hst : t.status = s.status) :
      (s.busy = true ∨ s.isDone = true → t.busy = true ∨ t.isDone = true ∨ s.events.head? = some .reset) ∧
      (s.busy = false → s.isDone = false → t.busy = true ∨ t.isDone = true →
        ∃ w, s.events.head? = some (.access (.wr .cmd w)) ∧ t.busy = true) := by
    rw [State.busy_congr hst, State.isDone_congr hst]
    exact ⟨fun h => h.imp_right .inl, fun hb hd h => by simp [hb, hd] at h⟩
  rcases step_next hstep with ⟨-, rfl, -⟩ | ⟨hb, es, w, -, -, rfl⟩ | ⟨es, he, rfl⟩ | ⟨a, es, he, -, -, rfl⟩
  · exact unchanged rfl
  · exact ⟨fun _ => .inr (.inl (State.complete_isDone _ _)), fun hb' => absurd hb (by simp [hb'])⟩
  · exact ⟨fun _ => .inr (.inr (by simp [he])), fun _ _ h => absurd h (by simp)⟩
  · rcases (s.withEvents es).doAccess_status a with ⟨v, rfl, ht⟩ | hst
    · rw [ht]
      exact ⟨fun _ => .inl (State.issue_busy _ _), fun _ _ _ => ⟨v, by simp [he], State.issue_busy _ _⟩⟩
    · exact unchanged hst

/-- What an access that completes may change of the operands: the place it writes, to the value it writes. -/
theorem State.doAccess_operands (s : State) (a : Access) :
    (∀ sp j, ((s.doAccess a).cells sp).read j ≠ (s.cells sp).read j →
      ∃ v, a = .wr ⟨sp, j⟩ v ∧ ((s.doAccess a).cells sp).read j = some (BitVec.ofNat 8 v)) ∧
    ((s.doAccess a).inlen ≠ s.inlen → ∃ v, a = .wr .inlen v ∧ (s.doAccess a).inlen = v) ∧
    ((s.doAccess a).auxlen ≠ s.auxlen → ∃ v, a = .wr .auxlen v ∧ (s.doAccess a).auxlen = v) := by
  cases a with
  | rd l =>
    simp only [State.doAccess]
    rcases s.doRead_cases l with ⟨v, -, hd⟩ | ⟨v, -, hd⟩ <;> simp [hd]
  | wr l v =>
    simp only [State.doAccess]
    rcases s.doWrite_cases l v with ⟨-, hd⟩ | ⟨rfl, hd⟩ | ⟨rfl, hd⟩ | ⟨hr, ho, hd⟩ | ⟨-, -, -, -, hd⟩
    · simp [hd]
    · simp [hd]
    · simp [hd]
    · refine ⟨fun sp j hne => ?_, by simp [hd], by simp [hd]⟩
      rw [hd, State.storeByte_cells _ _ _ _ _ hr ho] at hne ⊢
      split at hne
      case isFalse => exact absurd rfl hne
      case isTrue hsp =>
        subst hsp
        have hj : j = l.index := by
          by_contra hj
          exact hne (Memory.read_write_other _ _ hj)
        subst hj
        exact ⟨v, rfl, by simp⟩
    · simp [hd]

/-- Settles O54: completion keeps the operands, and an access changes only the place it writes, with BUSY = 0. -/
theorem operandsChangeOnlyByHostOrReset : Obligations.OperandsChangeOnlyByHostOrReset := by
  intro s t hstep
  rcases step_next hstep with ⟨-, rfl, -⟩ | ⟨-, es, w, -, -, rfl⟩ | ⟨es, he, rfl⟩ | ⟨a, es, he, hh, -, rfl⟩
  · exact .inr (by simp)
  · exact .inr (by simp)
  · exact .inl (by simp [he])
  · obtain ⟨hcells, hin, haux⟩ := (s.withEvents es).doAccess_operands a
    rw [he]
    refine .inr ⟨fun sp j hne => ?_, fun hne => ?_, fun hne => ?_⟩
    · obtain ⟨v, rfl, hv⟩ := hcells sp j (by simpa using hne)
      exact ⟨v, rfl, State.busy_of_not_holds hh (by simp), hv⟩
    · obtain ⟨v, rfl, hv⟩ := hin hne
      exact ⟨by rw [hv]; rfl, State.busy_of_not_holds hh (by simp)⟩
    · obtain ⟨v, rfl, hv⟩ := haux hne
      exact ⟨by rw [hv]; rfl, State.busy_of_not_holds hh (by simp)⟩

/-- Settles O35. -/
theorem commandIssue : Obligations.CommandIssue := by
  intro s w es he
  refine ⟨fun hb => ?_, fun hb => step_access_of_busy he hb (by simp)⟩
  have hstep : step s = .next ((s.withEvents es).issue (BitVec.ofNat 8 w.toNat)) :=
    step_access_of_idle he hb (Access.wf_wr_cmd _ w)
  rw [BitVec.ofNat_toNat, BitVec.setWidth_eq] at hstep
  have hst : statusBusy = 0x01#8 := by decide
  exact ⟨_, hstep, by rw [← hst]; rfl, State.issue_busy _ _, State.issue_isDone _ _, State.issue_err _ _, rfl⟩

/-- Settles O45. -/
theorem resetValues : Obligations.ResetValues :=
  ⟨rfl, rfl, rfl, rfl, rfl, rfl, fun sp i => by rw [State.reset_cells, Memory.read_nil], fun _ => rfl⟩

/-- Settles O51: in each of the three schedules the step is the ENGINE's, and the ENGINE's step is decided by the word. -/
theorem stepRunsTheDecodedCommand : Obligations.StepRunsTheDecodedCommand := by
  intro s w hb hp
  refine ⟨fun i hd => ⟨fun es he => ?_, fun he => ?_, fun a es he ha => ?_⟩,
    fun m hd => ⟨fun es he => ?_, fun he => ?_, fun a es he ha => ?_⟩⟩
  · rw [step_engine_of_busy he hb]; exact engineStep_of_command hp hd
  · rw [step_nil_of_busy he hb, engineStep_of_command hp hd]
  · rw [step_access_of_busy he hb ha, engineStep_of_command hp hd]
  · rw [step_engine_of_busy he hb]; exact engineStep_malformed_completes (s := s.withEvents es) hp hd
  · rw [step_nil_of_busy he hb]; exact engineStep_malformed_completes hp hd
  · rw [step_access_of_busy he hb ha]; exact engineStep_malformed_completes hp hd

end Sys2Proof.Machine
end

section
/-! SUPPORT. The host port (spec/20_memory.md R42 to R55): what a read finds after each operation, what a write keeps, and how a
step takes an access that is not held. -/

namespace Sys2Proof.Machine

-- ---------------------------------------------------------------- locations

/-- A well-formed pair of space REG is one of the five registers (R41). -/
theorem Loc.eq_register_of_wf {P : Params} {l : Loc} (hw : l.wf P = true) (hr : l.space = .reg) :
    l = .cmd ∨ l = .status ∨ l = .inlen ∨ l = .auxlen ∨ l = .outlen := by
  obtain ⟨sp, i⟩ := l
  subst hr
  have hi : i < 5 := Loc.wf_iff.1 hw
  interval_cases i <;> simp

/-- A location outside space REG holds one byte (spec/10_state.md R24). -/
theorem Loc.maxValue_of_ne_reg {P : Params} {l : Loc} (hr : l.space ≠ .reg) : l.maxValue P = 255 := by
  obtain ⟨sp, i⟩ := l
  cases sp with
  | reg => exact absurd rfl hr
  | key | iv | inp | aux | out => rfl

-- ---------------------------------------------------------------- the stored bytes

/-- Of two writes to one index the second decides. -/
theorem Memory.write_write_same (m : Memory) (i : Nat) (b c : Byte) : (m.write i b).write i c = m.write i c := by
  induction m with
  | nil => simp [Memory.write]
  | cons d m ih =>
    obtain ⟨j, d⟩ := d
    rcases lt_trichotomy i j with h | rfl | h
    · simp [Memory.write, h]
    · simp [Memory.write]
    · simp [Memory.write, Nat.not_lt_of_gt h, Nat.ne_of_gt h, ih]

-- ---------------------------------------------------------------- what a read finds

@[simp] theorem State.readLoc_withEvents (s : State) (es : List Event) (l : Loc) :
    (s.withEvents es).readLoc l = s.readLoc l := rfl

@[simp] theorem State.readLoc_reply (s : State) (l l' : Loc) (v : Nat) : (s.reply l v).readLoc l' = s.readLoc l' := rfl

/-- A byte of KEY, IV, IN or AUX reads as its cell (R44). -/
theorem State.readLoc_of_byte (s : State) {l : Loc} (hr : l.space ≠ .reg) (ho : l.space ≠ .out) :
    s.readLoc l = ((s.cells l.space).read l.index).map BitVec.toNat := by
  obtain ⟨sp, i⟩ := l
  cases sp with
  | reg => exact absurd rfl hr
  | out => exact absurd rfl ho
  | key | iv | inp | aux => rfl

/-- The registers and OUT read from their own fields, not from the stored bytes (R43, R44). -/
theorem State.readLoc_congr {s t : State} {l : Loc} (hl : l.space = .reg ∨ l.space = .out) (hst : t.status = s.status)
    (hi : t.inlen = s.inlen) (ha : t.auxlen = s.auxlen) (ho : t.out = s.out) : t.readLoc l = s.readLoc l := by
  rcases hl with hl | hl <;> simp [State.readLoc, State.outlen, hl, hst, hi, ha, ho]

theorem State.readLoc_setInlen_other (s : State) (n : Nat) {l : Loc} (h : l ≠ .inlen) :
    (s.setInlen n).readLoc l = s.readLoc l := by
  obtain ⟨sp, i⟩ := l
  cases sp with
  | reg =>
    match i with
    | 2 => exact absurd rfl h
    | 0 | 1 | 3 | i + 4 => rfl
  | key | iv | inp | aux | out => rfl

theorem State.readLoc_setAuxlen_other (s : State) (n : Nat) {l : Loc} (h : l ≠ .auxlen) :
    (s.setAuxlen n).readLoc l = s.readLoc l := by
  obtain ⟨sp, i⟩ := l
  cases sp with
  | reg =>
    match i with
    | 3 => exact absurd rfl h
    | 0 | 1 | 2 | i + 4 => rfl
  | key | iv | inp | aux | out => rfl

section storeByte
variable (s : State) {l : Loc} (b : Byte) (hr : l.space ≠ .reg) (ho : l.space ≠ .out)
include hr ho

theorem State.readLoc_storeByte_same : (s.storeByte l.space l.index b).readLoc l = some b.toNat := by
  rw [State.readLoc_of_byte _ hr ho, State.storeByte_cells _ _ _ _ _ hr ho, if_pos rfl, Memory.read_write_same,
    Option.map_some]

theorem State.readLoc_storeByte_other {l' : Loc} (h : l' ≠ l) :
    (s.storeByte l.space l.index b).readLoc l' = s.readLoc l' := by
  by_cases hl' : l'.space = .reg ∨ l'.space = .out
  · exact State.readLoc_congr hl' (by simp) (by simp) (by simp) (by simp)
  · obtain ⟨hr', ho'⟩ := not_or.1 hl'
    rw [State.readLoc_of_byte _ hr' ho', State.readLoc_of_byte _ hr' ho', State.storeByte_cells _ _ _ _ _ hr ho]
    split
    case isFalse => rfl
    case isTrue hsp =>
      have hi : l'.index ≠ l.index := fun hi => h (by cases l; cases l'; simp_all)
      rw [Memory.read_write_other _ _ hi, hsp]

theorem State.storeByte_storeByte_same (c : Byte) :
    (s.storeByte l.space l.index b).storeByte l.space l.index c = s.storeByte l.space l.index c := by
  cases hsp : l.space with
  | reg => exact absurd hsp hr
  | out => exact absurd hsp ho
  | key | iv | inp | aux => simp [State.storeByte, Memory.write_write_same]

end storeByte

-- ---------------------------------------------------------------- what a completed access does

theorem State.doRead_of_readLoc {s : State} {l : Loc} {v : Nat} (h : s.readLoc l = some v) :
    s.doRead l = s.reply l v := by
  simp [State.doRead, h]

/-- A write does not look at the inputs left. -/
theorem State.doWrite_withEvents (s : State) (es : List Event) (l : Loc) (v : Nat) :
    (s.withEvents es).doWrite l v = (s.doWrite l v).withEvents es := by
  obtain ⟨sp, i⟩ := l
  cases sp with
  | reg =>
    match i with
    | 0 | 1 | 2 | 3 | i + 4 => rfl
  | key | iv | inp | aux | out => rfl

/-- A read-only location ignores the write (R46). -/
theorem State.doWrite_of_readOnly (s : State) {l : Loc} (v : Nat) (h : l = .status ∨ l = .outlen ∨ l.space = .out) :
    s.doWrite l v = s := by
  rcases h with rfl | rfl | h
  · rfl
  · rfl
  · simp [State.doWrite, h]

/-- A write to a byte of KEY, IV, IN or AUX stores it (R45). -/
theorem State.doWrite_of_byte (s : State) {l : Loc} (v : Nat) (hr : l.space ≠ .reg) (ho : l.space ≠ .out) :
    s.doWrite l v = s.storeByte l.space l.index (BitVec.ofNat 8 v) := by
  obtain ⟨sp, i⟩ := l
  cases sp with
  | reg => exact absurd rfl hr
  | out => exact absurd rfl ho
  | key | iv | inp | aux => rfl

/-- A writable location other than CMD reads the value written (R45). -/
theorem State.readLoc_doWrite_same {P : Params} (s : State) {l : Loc} {v : Nat} (hw : (Access.wr l v).wf P = true)
    (hc : l ≠ .cmd) (hst : l ≠ .status) (hol : l ≠ .outlen) (ho : l.space ≠ .out) :
    (s.doWrite l v).readLoc l = some v := by
  obtain ⟨hi, hv⟩ := Access.wf_wr.1 hw
  rcases s.doWrite_cases l v with ⟨h, -⟩ | ⟨rfl, hd⟩ | ⟨rfl, hd⟩ | ⟨hr, -, hd⟩ | ⟨hr, -, hin, haux, -⟩
  · exact absurd h hc
  · rw [hd]; rfl
  · rw [hd]; rfl
  · rw [Loc.maxValue_of_ne_reg hr] at hv
    rw [hd, State.readLoc_storeByte_same _ _ hr ho, BitVec.toNat_ofNat, Nat.mod_eq_of_lt (by omega)]
  · rcases Loc.eq_register_of_wf (Loc.wf_iff.2 hi) (hr.resolve_right ho) with h | h | h | h | h <;> contradiction

/-- No location but the one written reads differently, unless a command is issued (R43). -/
theorem State.readLoc_doWrite_other (s : State) {l l' : Loc} (v : Nat) (hc : l ≠ .cmd) (h : l' ≠ l) :
    (s.doWrite l v).readLoc l' = s.readLoc l' := by
  rcases s.doWrite_cases l v with ⟨hl, -⟩ | ⟨rfl, hd⟩ | ⟨rfl, hd⟩ | ⟨hr, ho, hd⟩ | ⟨-, -, -, -, hd⟩
  · exact absurd hl hc
  · rw [hd, State.readLoc_setInlen_other _ _ h]
  · rw [hd, State.readLoc_setAuxlen_other _ _ h]
  · rw [hd, State.readLoc_storeByte_other _ _ hr ho h]
  · rw [hd]

/-- What a write that issues no command leaves as it was besides the locations. -/
theorem State.doWrite_frame (s : State) {l : Loc} (v : Nat) (hc : l ≠ .cmd) :
    (s.doWrite l v).status = s.status ∧ (s.doWrite l v).events = s.events ∧ (s.doWrite l v).pend = s.pend ∧
      (s.doWrite l v).chain = s.chain ∧ (s.doWrite l v).returned = s.returned ∧ (s.doWrite l v).trace = s.trace ∧
      s.NoDraw (s.doWrite l v) := by
  rcases s.doWrite_cases l v with ⟨h, -⟩ | ⟨-, hd⟩ | ⟨-, hd⟩ | ⟨-, -, hd⟩ | ⟨-, -, -, -, hd⟩
  · exact absurd h hc
  all_goals simp [hd, State.NoDraw]

/-- A write that issues no command, made twice, is made once (R52). -/
theorem State.doWrite_doWrite_same (s : State) {l : Loc} (v : Nat) (hc : l ≠ .cmd) :
    (s.doWrite l v).doWrite l v = s.doWrite l v := by
  rcases s.doWrite_cases l v with ⟨h, -⟩ | ⟨rfl, hd⟩ | ⟨rfl, hd⟩ | ⟨hr, ho, hd⟩ | ⟨-, -, -, -, hd⟩
  · exact absurd h hc
  · rfl
  · rfl
  · rw [hd, State.doWrite_of_byte _ _ hr ho, State.storeByte_storeByte_same _ _ hr ho]
  · rw [hd, hd]

-- ---------------------------------------------------------------- how a step takes an access

section access
variable {s : State} {es : List Event} {l : Loc} {v : Nat}

theorem State.holds_of_idle (a : Access) (hb : s.busy = false) : s.holds a = false := by
  rw [State.holds, hb, Bool.false_and]

theorem State.holds_rd_status : s.holds (.rd .status) = false := by
  simp [State.holds]

/-- An access that is not held is the HOST's to make (R47). -/
theorem step_access_of_not_holds {a : Access} (he : s.events = .access a :: es) (hh : s.holds a = false) :
    step s = hostAccess s.params a (s.withEvents es) := by
  simp [step, he, hh]

/-- A read that is not held hands the value it finds to the HOST and changes nothing else (R44). -/
theorem step_read_of_readLoc (he : s.events = .access (.rd l) :: es) (hh : s.holds (.rd l) = false)
    (hw : l.wf s.params = true) (hv : s.readLoc l = some v) :
    step s = .next ((s.reply l v).withEvents es) := by
  have hd : (s.withEvents es).doRead l = (s.withEvents es).reply l v := State.doRead_of_readLoc (by simpa using hv)
  rw [step_access_of_not_holds he hh, hostAccess_of_wf (a := .rd l) _ hw, State.doAccess, hd]
  rfl

/-- A well-formed write on an idle instance has its effect at once (R45). -/
theorem step_write_of_idle (he : s.events = .access (.wr l v) :: es) (hb : s.busy = false)
    (hw : (Access.wr l v).wf s.params = true) : step s = .next ((s.doWrite l v).withEvents es) := by
  rw [step_access_of_idle he hb hw, State.doAccess, State.doWrite_withEvents]

/-- While a command is in progress STATUS is 0x01 (spec/10_state.md R37 (a), (f)). -/
theorem State.Inv.status_of_busy {P : Params} (h : s.Inv P) (hb : s.busy = true) : s.status = 0x01#8 := by
  obtain ⟨hd, he, -, -⟩ := h.busy hb
  obtain ⟨-, hres, -, -⟩ := h.range
  have hst : s.status = statusWord s.busy s.isDone s.err := eq_statusWord_of_reservedOf hres
  rw [hst, hb, hd, he]
  decide

/-- A command in progress has its word latched, so the ENGINE completes it (R30, R37 (a)). -/
theorem State.Inv.engineStep_completes {P : Params} (h : s.Inv P) (hb : s.busy = true) :
    ∃ t r calls, engineStep s = .next t ∧ s.CompletedWith t r calls := by
  obtain ⟨-, -, -, hp⟩ := h.busy hb
  obtain ⟨w, hw⟩ := Option.isSome_iff_exists.1 hp
  exact ⟨_, _, _, engineStep_of_pend hw, s.completedWith_complete _⟩

end access

theorem run_two_of_step {s t u : State} (h1 : step s = .next t) (h2 : step t = .next u) :
    Host.Core.run Sys2Proof.core 2 s = .next u := by
  simp [Host.Core.run, Sys2Proof.core, h1, h2]

-- ---------------------------------------------------------------- the statements

/-- Settles O38. -/
theorem writeChangesItsLocationOnly : Obligations.WriteChangesItsLocationOnly := by
  intro s l v es hw hc hb he
  obtain ⟨-, -, hpend, hchain, hret, htrace, hdraw⟩ := s.doWrite_frame v hc
  exact ⟨_, step_write_of_idle he hb hw, rfl, fun hst hol ho => s.readLoc_doWrite_same hw hc hst hol ho,
    fun l' hl' => s.readLoc_doWrite_other v hc hl', hpend, hchain, hret, htrace, hdraw⟩

/-- Settles O40: the first access leaves the instance idle, with the second as its next input. -/
theorem accessesAreIdempotent : Obligations.AccessesAreIdempotent := by
  refine fun s es => ⟨fun l v hc hw hb he => ?write, fun l hw hb hsome he => ?read⟩
  case write =>
    have h1 := step_write_of_idle he hb hw
    obtain ⟨hst, -⟩ := s.doWrite_frame v hc
    have hb' : ((s.doWrite l v).withEvents (.access (.wr l v) :: es)).busy = false := (State.busy_congr hst).trans hb
    have h2 := step_write_of_idle rfl hb' (by rw [step_params h1]; exact hw)
    rw [State.doWrite_withEvents, State.doWrite_doWrite_same _ _ hc] at h2
    exact ⟨_, _, h1, h2, rfl⟩
  case read =>
    obtain ⟨v, hv⟩ := Option.isSome_iff_exists.1 hsome
    have h1 := step_read_of_readLoc he (State.holds_of_idle _ hb) hw hv
    have hb' : ((s.reply l v).withEvents (.access (.rd l) :: es)).busy = false := hb
    have hv' : ((s.reply l v).withEvents (.access (.rd l) :: es)).readLoc l = some v := by simpa using hv
    have h2 := step_read_of_readLoc rfl (State.holds_of_idle _ hb') (by rw [step_params h1]; exact hw) hv'
    exact ⟨_, _, v, h1, h2, rfl, rfl⟩

/-- Settles O41. -/
theorem accessesAreHeldWhileBusy : Obligations.AccessesAreHeldWhileBusy := by
  refine fun s a es hinv hb he => ⟨?status, fun ha => ?held⟩
  case status =>
    rintro rfl
    refine step_read_of_readLoc he State.holds_rd_status (Access.wf_rd_reg _ (by decide)) ?_
    show some s.status.toNat = some 1
    rw [hinv.status_of_busy hb]; rfl
  case held =>
    obtain ⟨t, r, calls, hstep, hcomp⟩ := hinv.engineStep_completes hb
    obtain ⟨hevents, -⟩ := hcomp.host
    exact ⟨t, r, calls, (step_access_of_busy he hb ha).trans hstep, hstep, hcomp, hevents.trans he, hcomp.busy⟩

/-- Settles O42: the ENGINE completes the command, and the write then finds an idle instance. -/
theorem heldWriteTakesEffectAfterCompletion : Obligations.HeldWriteTakesEffectAfterCompletion := by
  intro s l v es hinv hb hw he
  obtain ⟨t, r, calls, hstep, hcomp⟩ := hinv.engineStep_completes hb
  have h1 : step s = .next t := (step_access_of_busy he hb (by simp)).trans hstep
  have hwt : (Access.wr l v).wf t.params = true := by rw [step_params h1]; exact hw
  obtain ⟨hevents, -⟩ := hcomp.host
  have h2 : step t = .next ((t.doWrite l v).withEvents es) := step_write_of_idle (hevents.trans he) hcomp.busy hwt
  refine ⟨t, r, calls, _, hstep, hcomp, run_two_of_step h1 h2, ?key, ?iv, ?inp, ?aux, ?inlen, ?auxlen, ?cmd, ?readOnly,
    fun hc hst hol ho => t.readLoc_doWrite_same hwt hc hst hol ho⟩
  case key | iv | inp | aux => intro hsp; simp only [State.doWrite, hsp]; rfl
  case inlen | auxlen => rintro rfl; rfl
  case cmd =>
    rintro rfl
    have hst : statusBusy = 0x01#8 := by decide
    rw [← hst]; rfl
  case readOnly => intro h; rw [t.doWrite_of_readOnly v h]; rfl

/-- Settles O36: the value named is the one the read finds. -/
theorem readsReturnTheStoredValue : Obligations.ReadsReturnTheStoredValue := by
  intro s l es v hw he hidle hv
  have hh : s.holds (.rd l) = false := by
    rcases hidle with hb | rfl
    · exact State.holds_of_idle _ hb
    · exact State.holds_rd_status
  refine step_read_of_readLoc he hh hw ?_
  rcases hv with ⟨rfl, rfl⟩ | ⟨rfl, rfl⟩ | ⟨rfl, rfl⟩ | ⟨rfl, rfl⟩ | ⟨rfl, rfl⟩ | ⟨ho, hv⟩ | ⟨hr, ho, hread, hv⟩
  case inr.inr.inr.inr.inr.inl =>
    simp only [State.readLoc, ho, hv, Option.some.injEq]
    split
    · rfl
    · rw [List.getD_eq_default _ _ (Nat.le_of_not_lt ‹_›)]; rfl
  case inr.inr.inr.inr.inr.inr =>
    rw [s.readLoc_of_byte hr ho, hread, Option.map_some, BitVec.toNat_ofNat, Nat.mod_eq_of_lt hv]
  all_goals rfl

/-- Settles O39. -/
theorem readOnlyAndWriteOnlyLocations : Obligations.ReadOnlyAndWriteOnlyLocations := by
  refine fun s es hb => ⟨fun l v hw hl he => ?_, fun he => ?_⟩
  · rw [step_write_of_idle he hb hw, s.doWrite_of_readOnly v hl]; rfl
  · exact step_read_of_readLoc he (State.holds_of_idle _ hb) (Access.wf_rd_reg _ (by decide)) rfl

/-- Settles O43. -/
theorem accessToNoLocationStops : Obligations.AccessToNoLocationStops := by
  refine fun s l v es hb => ⟨fun hw he => ?_, fun hw he => ?_, fun hw hv he => ?_⟩
  all_goals rw [step_access_of_not_holds he (State.holds_of_idle _ hb)]
  · simp [hostAccess, hw]
  · simp [hostAccess, hw]
  · simp [hostAccess, hw, Nat.not_le.2 hv]

end Sys2Proof.Machine
end

section
/-! SUPPORT. Decoding of the command word (spec/30_encoding.md R60 to R64): the decoder by the two fields, and how many words are
malformed. -/

namespace Sys2Proof

/-- A word is its two fields, `RSV` above `OP` (R60). -/
theorem fieldRSV_append_fieldOP (w : BitVec 8) : fieldRSV w ++ fieldOP w = w := by
  revert w; decide

theorem Laws.Encoding.statement_of_command (i : Instr) : Laws.Encoding.Statement i := by
  cases i with
  | pad => exact Laws.Encoding.pad
  | unpad => exact Laws.Encoding.unpad
  | xor => exact Laws.Encoding.xor
  | cbcenc => exact Laws.Encoding.cbcenc
  | cbcdec => exact Laws.Encoding.cbcdec

/-- A word is the command's exactly when both its fields are. -/
theorem eq_encode_iff {w : BitVec 8} {i : Instr} : w = encode i ↔ fieldRSV w = 0#5 ∧ fieldOP w = opOf i := by
  constructor
  · rintro rfl
    obtain ⟨-, hrsv, hop, -, -⟩ := Laws.Encoding.statement_of_command i
    exact ⟨hrsv, hop⟩
  · rintro ⟨hrsv, hop⟩
    rw [← fieldRSV_append_fieldOP w, hrsv, hop, encode]

theorem decodeOP_eq_command_iff {op : BitVec 3} {i : Instr} : decodeOP op = .command i ↔ op = opOf i := by
  cases i <;> revert op <;> decide

theorem decodeOP_eq_malformed_iff {op : BitVec 3} {m : Malformed} :
    decodeOP op = .malformed m ↔ m = .reservedOp ∧ (op = 0#3 ∨ op = 6#3 ∨ op = 7#3) := by
  cases m <;> revert op <;> decide

/-- The decoder answers a command exactly on the row of the opcode map (R61, R62). -/
theorem decode_eq_command_iff {w : BitVec 8} {i : Instr} :
    decode w = .command i ↔ fieldRSV w = 0#5 ∧ fieldOP w = opOf i := by
  rw [decode]
  split
  · simp [*, decodeOP_eq_command_iff]
  · simp [*]

/-- The malformed words of R64. -/
theorem decode_malformed_iff {w : BitVec 8} :
    (∃ m, decode w = .malformed m) ↔ fieldRSV w ≠ 0#5 ∨ fieldOP w = 0#3 ∨ fieldOP w = 6#3 ∨ fieldOP w = 7#3 := by
  rw [decode]
  split
  · simp [*, decodeOP_eq_malformed_iff]
  · simp [*]

/-- Settles O1. -/
theorem decodingFollowsTheOpcodeMap : Obligations.DecodingFollowsTheOpcodeMap :=
  fun _ => ⟨fun _ => decode_eq_command_iff, decode_malformed_iff⟩

/-- Settles O2. -/
theorem opcodeTableWordsDecode : Obligations.OpcodeTableWordsDecode := by
  unfold Obligations.OpcodeTableWordsDecode
  decide

/-- Settles O3: both sides say what the two fields of the word are. -/
theorem decodeInvertsEncode : Obligations.DecodeInvertsEncode :=
  fun _ _ => decode_eq_command_iff.trans eq_encode_iff.symm

end Sys2Proof

namespace Sys2Proof.Machine

-- ---------------------------------------------------------------- the malformed words, counted

theorem fieldRSV_toNat (w : BitVec 8) : (fieldRSV w).toNat = w.toNat / 8 := by
  revert w; decide

/-- Every word from 8 on has a bit of `RSV` set. -/
theorem fieldRSV_ofNat_ne_zero {n : Nat} (hn : 8 ≤ n) (h : n < 256) : fieldRSV (BitVec.ofNat 8 n) ≠ 0#5 := by
  intro h0
  have hdiv : 0 = (BitVec.ofNat 8 n).toNat / 8 := by rw [← fieldRSV_toNat, h0]; rfl
  rw [BitVec.toNat_ofNat, Nat.mod_eq_of_lt h] at hdiv
  omega

theorem decodeTableWord_of_fieldRSV_ne_zero {n : Nat} (h : fieldRSV (BitVec.ofNat 8 n) ≠ 0#5) :
    decodeTableWord 8 n = none := by
  obtain ⟨m, hm⟩ := decode_malformed_iff.2 (.inl h)
  simp [decodeTableWord, hm]

/-- Where a test accepts every word with `RSV` not zero, those are 248 of the words it accepts, and the rest are among the eight
words with `RSV` zero. -/
theorem length_filter_words {p : Nat → Bool} (h : ∀ n, fieldRSV (BitVec.ofNat 8 n) ≠ 0#5 → p n = true) :
    ((List.range 256).filter p).length = ((List.range 8).filter p).length + 248 := by
  have hall : ∀ n ∈ (List.range 248).map (8 + ·), p n = true := fun n hn => by
    obtain ⟨k, hk, rfl⟩ := List.mem_map.1 hn
    have hlt := List.mem_range.1 hk
    exact h _ (fieldRSV_ofNat_ne_zero (by omega) (by omega))
  rw [show 256 = 8 + 248 from rfl, List.range_add, List.filter_append, List.length_append, List.filter_eq_self.2 hall,
    List.length_map, List.length_range]

/-- Settles O52: the ENGINE completes a malformed word as R64 says, a CMD write of any word issues it, and besides the 248 words
with `RSV` not zero only 0, 6 and 7 name no command. -/
theorem malformedWordFails : Obligations.MalformedWordFails := by
  refine ⟨fun s w hp hw => ?completion, fun s w es hb he => ?issue, ?malformed, ?reserved⟩
  case completion =>
    obtain ⟨m, hm⟩ := decode_malformed_iff.2 hw
    exact engineStep_malformed_completes hp hm
  case issue =>
    obtain ⟨hissue, -⟩ := commandIssue s w es he
    obtain ⟨t, hstep, rfl, hbusy, -⟩ := hissue hb
    exact ⟨_, hstep, rfl, hbusy⟩
  case malformed =>
    rw [length_filter_words fun n hn => by rw [decodeTableWord_of_fieldRSV_ne_zero hn, Option.isNone_none]]
    decide
  case reserved =>
    rw [length_filter_words fun n hn => decide_eq_true hn]
    decide

end Sys2Proof.Machine
end

section
/-! SUPPORT. The expansion of `ldin` (spec/30_encoding.md R68) run on an idle instance: consecutive bytes stored in IN, then
INLEN. -/

namespace Sys2Proof.Machine

/-- The stored bytes after the bytes `x` have been written from index `i` on. -/
def Memory.writeFrom : Memory → Nat → Bytes → Memory
  | m, _, [] => m
  | m, i, b :: bs => Memory.writeFrom (m.write i b) (i + 1) bs

/-- The last write of an index decides: a byte of `x` inside the range written, the old byte outside it. -/
theorem Memory.read_writeFrom (m : Memory) (i : Nat) (x : Bytes) (k : Nat) :
    (m.writeFrom i x).read k = (if i ≤ k then x[k - i]? else none).or (m.read k) := by
  induction x generalizing m i with
  | nil => simp [Memory.writeFrom]
  | cons b bs ih =>
    rw [Memory.writeFrom, ih]
    rcases lt_trichotomy k i with hk | rfl | hk
    · rw [Memory.read_write_other m b (Nat.ne_of_lt hk), if_neg (by omega), if_neg (by omega)]
    · rw [Memory.read_write_same, if_neg (by omega), if_pos le_rfl, Nat.sub_self]
      rfl
    · rw [Memory.read_write_other m b (Nat.ne_of_gt hk), if_pos (Nat.succ_le_of_lt hk), if_pos (Nat.le_of_lt hk),
        show k - i = k - (i + 1) + 1 by omega, List.getElem?_cons_succ]

theorem Memory.read_writeFrom_of_lt (m : Memory) {x : Bytes} {k : Nat} (h : k < x.length) :
    (m.writeFrom 0 x).read k = x[k]? := by
  simp [Memory.read_writeFrom, h]

theorem Memory.read_writeFrom_of_ge (m : Memory) {x : Bytes} {k : Nat} (h : x.length ≤ k) :
    (m.writeFrom 0 x).read k = m.read k := by
  simp [Memory.read_writeFrom, h]

/-- The instance with the bytes `x` written to IN from index `i` on and the inputs `es` left. -/
def State.withInput (s : State) (i : Nat) (x : Bytes) (es : List Event) : State :=
  { s with inp := s.inp.writeFrom i x, events := es }

theorem run_succ_of_step {s t : State} (h : step s = .next t) (k : Nat) :
    Host.Core.run Sys2Proof.core (k + 1) s = Host.Core.run Sys2Proof.core k t := by
  simp [Host.Core.run, Sys2Proof.core, h]

-- ---------------------------------------------------------------- the expansion

@[simp] theorem Script.loadFrom_length (sp : Space) (i : Nat) (x : Bytes) : (Script.loadFrom sp i x).length = x.length := by
  induction x generalizing i with
  | nil => rfl
  | cons b bs ih => rw [Script.loadFrom, List.length_cons, List.length_cons, ih]

/-- A literal no longer than the space allows expands to its bytes and its length; a longer one is an assembly error. -/
theorem Script.ldin_eq_some_iff {P : Params} {x : Bytes} {ops : List Access} :
    Script.ldin P x = some ops ↔ x.length ≤ P.NMAX ∧ ops = Script.loadFrom .inp 0 x ++ [.wr .inlen x.length] := by
  rw [Script.ldin]
  split <;> simp [*, eq_comm]

theorem Access.wf_wr_inp {P : Params} {i : Nat} (h : i < P.NMAX) (b : Byte) : (Access.wr ⟨.inp, i⟩ b.toNat).wf P = true :=
  Access.wf_wr.2 ⟨h, show b.toNat ≤ 255 by have := b.isLt; omega⟩

theorem Access.wf_wr_inlen {P : Params} {n : Nat} (h : n ≤ P.NMAX) : (Access.wr .inlen n).wf P = true :=
  Access.wf_wr.2 ⟨show 2 < 5 by decide, h⟩

/-- One byte of the operand (R45, R68). -/
theorem step_write_inp {s : State} {i : Nat} {b : Byte} {es : List Event} (hb : s.busy = false) (hi : i < s.params.NMAX)
    (he : s.events = .access (.wr ⟨.inp, i⟩ b.toNat) :: es) : step s = .next (s.withInput i [b] es) := by
  rw [step_write_of_idle he hb (Access.wf_wr_inp hi b), s.doWrite_of_byte _ (by simp) (by simp), BitVec.ofNat_toNat,
    BitVec.setWidth_eq]
  rfl

/-- The byte writes of the expansion store the literal in IN and touch nothing else. -/
theorem run_loadFrom_inp {s : State} {i : Nat} {x : Bytes} {es : List Event} (hb : s.busy = false)
    (hx : i + x.length ≤ s.params.NMAX) (he : s.events = (Script.loadFrom .inp i x).map Event.access ++ es) (k : Nat) :
    Host.Core.run Sys2Proof.core (x.length + k) s = Host.Core.run Sys2Proof.core k (s.withInput i x es) := by
  induction x generalizing s i with
  | nil =>
    have hes : s.events = es := he
    subst hes
    rw [List.length_nil, Nat.zero_add]; rfl
  | cons b bs ih =>
    rw [List.length_cons] at hx
    rw [List.length_cons, Nat.add_right_comm, run_succ_of_step (step_write_inp hb (by omega) he)]
    exact ih hb (show i + 1 + bs.length ≤ s.params.NMAX by omega) rfl

/-- Settles O44: the byte writes store the literal, and the INLEN write is the last step. -/
theorem ldinLoadsTheOperand : Obligations.LdinLoadsTheOperand := by
  intro s x ops es hb hops he
  obtain ⟨hlen, rfl⟩ := Script.ldin_eq_some_iff.1 hops
  have hcount : (Script.loadFrom .inp 0 x ++ [Access.wr .inlen x.length]).length = x.length + 1 := by simp
  rw [List.map_append, List.append_assoc] at he
  have hinlen : step (s.withInput 0 x (.access (.wr .inlen x.length) :: es)) =
      .next ((s.withInput 0 x es).setInlen x.length) :=
    step_write_of_idle (s := s.withInput 0 x (.access (.wr .inlen x.length) :: es)) rfl hb (Access.wf_wr_inlen hlen)
  refine ⟨hcount, (s.withInput 0 x es).setInlen x.length, ?run, ?operand, rfl, rfl, ?beyond⟩
  case run => rw [hcount, run_loadFrom_inp hb (by omega) he]; exact run_succ_of_step hinlen 0
  case operand => exact fun j hj => s.inp.read_writeFrom_of_lt hj
  case beyond => exact fun j hj => s.inp.read_writeFrom_of_ge hj

end Sys2Proof.Machine
end

section
/-! SUPPORT. The Padding Codec (spec/40_padding.md R80 to R84): the one shape of what `pad` answers, and what `unpad` answers in
terms of the tail of its operand. -/

namespace Sys2Proof.Machine

-- ---------------------------------------------------------------- sequences that end in one repeated byte

theorem rep_add (v : Byte) (m n : Nat) : rep v (m + n) = rep v m ++ rep v n := List.replicate_add ..

theorem rep_one (v : Byte) : rep v 1 = [v] := rfl

theorem getLast?_append_rep (x : Bytes) (v : Byte) {n : Nat} (hn : 1 ≤ n) : (x ++ rep v n).getLast? = some v := by
  obtain ⟨k, rfl⟩ := Nat.exists_eq_add_of_le' hn
  rw [rep_add, rep_one, ← List.append_assoc, List.getLast?_concat]

/-- A sequence ends in `n` bytes of value `v` exactly when its last `n` bytes all equal `v`; before them stands the rest. -/
theorem eq_append_rep_iff {x y : Bytes} {v : Byte} {n : Nat} :
    y = x ++ rep v n ↔
      n ≤ y.length ∧ (slice y (y.length - n) n).all (· == v) = true ∧ x = slice y 0 (y.length - n) := by
  constructor
  · rintro rfl
    simp [slice, rep]
  · rintro ⟨hn, hall, rfl⟩
    have hlen : (slice y (y.length - n) n).length = n := slice_length_of_le (by omega)
    have htail : slice y (y.length - n) n = rep v n :=
      List.eq_replicate_iff.2 ⟨hlen, fun b hb => beq_iff_eq.1 (List.all_eq_true.1 hall b hb)⟩
    have hdrop : slice y (y.length - n) n = y.drop (y.length - n) := List.take_of_length_le (by simp; omega)
    rw [← htail, hdrop, slice, List.drop_zero, List.take_append_drop]

-- ---------------------------------------------------------------- pad

/-- What `pad` answers on at most one block: `n` bytes of value `n`, which fill the block or are one whole block (R80, R81). -/
theorem pad_eq_append_rep {P : Params} {x : Bytes} (h : x.length ≤ P.B) :
    ∃ n, 1 ≤ n ∧ n ≤ P.B ∧ x.length + n = (if x.length < P.B then P.B else 2 * P.B) ∧
      pad P x = .ok (x ++ rep (BitVec.ofNat 8 n) n) := by
  have hB := P.B_pos
  rcases Nat.lt_or_eq_of_le h with hlt | heq
  · exact ⟨P.B - x.length, by omega, by omega, by rw [if_pos hlt]; omega, pad_of_lt hlt⟩
  · exact ⟨P.B, hB, le_rfl, by rw [if_neg (by omega)]; omega, pad_of_eq heq⟩

/-- A padded sequence is a positive number of whole blocks (R81). -/
theorem paddedBlocks_aligned (P : Params) (L : Nat) :
    0 < (if L < P.B then P.B else 2 * P.B) ∧ (if L < P.B then P.B else 2 * P.B) % P.B = 0 := by
  have hB := P.B_pos
  split
  · exact ⟨hB, Nat.mod_self _⟩
  · exact ⟨by omega, Nat.mul_mod_left _ _⟩

theorem pad_eq_fail_iff {P : Params} {x : Bytes} {f : Failure} :
    pad P x = .fail f ↔ f = .invalidInput ∧ P.B < x.length := by
  rcases Nat.lt_or_ge P.B x.length with hgt | hle
  · simp [pad_of_gt hgt, hgt, eq_comm]
  · obtain ⟨n, -, -, -, hpad⟩ := pad_eq_append_rep hle
    simp [hpad, Nat.not_lt.2 hle]

-- ---------------------------------------------------------------- unpad

/-- The candidate is the last byte, and a valid tail passes its check (R82, R83). -/
theorem unpad_append_rep {P : Params} {x : Bytes} {n : Nat} (h1 : 1 ≤ n) (hn : n ≤ P.B)
    (hm : (x.length + n) % P.B = 0) : unpad P (x ++ rep (BitVec.ofNat 8 n) n) = .ok x := by
  obtain ⟨-, hall, hx⟩ := eq_append_rep_iff.1 (Eq.refl (x ++ rep (BitVec.ofNat 8 n) n))
  have hlen : (x ++ rep (BitVec.ofNat 8 n) n).length = x.length + n := by simp
  have hlast : (x ++ rep (BitVec.ofNat 8 n) n).getLastD 0 = BitVec.ofNat 8 n := by
    rw [List.getLastD_eq_getLast?, getLast?_append_rep x _ h1, Option.getD_some]
  simp only [unpad]
  rw [if_neg (by rw [hlen]; omega), hlast, toNat_ofNat_of_le hn, if_neg (by omega), if_pos hall, ← hx]

/-- What `unpad` can do with an aligned operand: strip a valid tail, or answer `InvalidPadding` (R82, R83). -/
theorem unpad_cases {P : Params} {y : Bytes} (h0 : 0 < y.length) (hm : y.length % P.B = 0) :
    (∃ x n, 1 ≤ n ∧ n ≤ P.B ∧ y = x ++ rep (BitVec.ofNat 8 n) n ∧ unpad P y = .ok x) ∨
    unpad P y = .fail .invalidPadding := by
  have hB : P.B ≤ y.length := Nat.le_of_dvd h0 (Nat.dvd_of_mod_eq_zero hm)
  simp only [unpad]
  rw [if_neg (by omega)]
  split
  · exact .inr rfl
  · split
    · refine .inl ⟨_, (y.getLastD 0).toNat, by omega, by omega, eq_append_rep_iff.2 ⟨by omega, ?_, rfl⟩, rfl⟩
      rwa [BitVec.ofNat_toNat, BitVec.setWidth_eq]
    · exact .inr rfl

theorem unpad_of_not_validTail {P : Params} {y : Bytes} (h0 : 0 < y.length) (hm : y.length % P.B = 0)
    (hv : ¬ ValidTail P y) : unpad P y = .fail .invalidPadding :=
  (unpad_cases h0 hm).resolve_left fun ⟨x, n, h1, hn, hy, _⟩ => hv ⟨x, n, h1, hn, hy⟩

theorem unpad_eq_ok_iff {P : Params} {x y : Bytes} :
    unpad P y = .ok x ↔
      0 < y.length ∧ y.length % P.B = 0 ∧ ∃ n, 1 ≤ n ∧ n ≤ P.B ∧ y = x ++ rep (BitVec.ofNat 8 n) n := by
  constructor
  · intro h
    by_cases hmis : y.length = 0 ∨ y.length % P.B ≠ 0
    · simp [unpad_of_misaligned hmis] at h
    · obtain ⟨h0, hm⟩ : 0 < y.length ∧ y.length % P.B = 0 := by omega
      rcases unpad_cases h0 hm with ⟨x', n, h1, hn, hy, hok⟩ | hfail
      · cases h.symm.trans hok
        exact ⟨h0, hm, n, h1, hn, hy⟩
      · simp [hfail] at h
  · rintro ⟨-, hm, n, h1, hn, rfl⟩
    exact unpad_append_rep h1 hn (by simpa using hm)

theorem unpad_eq_invalidInput_iff {P : Params} {y : Bytes} :
    unpad P y = .fail .invalidInput ↔ y.length = 0 ∨ y.length % P.B ≠ 0 := by
  refine ⟨fun h => ?_, unpad_of_misaligned⟩
  by_contra hal
  obtain ⟨h0, hm⟩ : y.length ≠ 0 ∧ y.length % P.B = 0 := by omega
  exact unpad_ne_invalidInput h0 hm h

theorem unpad_eq_invalidPadding_iff {P : Params} {y : Bytes} :
    unpad P y = .fail .invalidPadding ↔ 0 < y.length ∧ y.length % P.B = 0 ∧ ¬ ValidTail P y := by
  refine ⟨fun h => ?_, fun ⟨h0, hm, hv⟩ => unpad_of_not_validTail h0 hm hv⟩
  by_cases hmis : y.length = 0 ∨ y.length % P.B ≠ 0
  · simp [unpad_of_misaligned hmis] at h
  · obtain ⟨h0, hm⟩ : 0 < y.length ∧ y.length % P.B = 0 := by omega
    refine ⟨h0, hm, fun ⟨x, n, h1, hn, hy⟩ => ?_⟩
    simp [unpad_eq_ok_iff.2 ⟨h0, hm, n, h1, hn, hy⟩] at h

/-- R84. -/
theorem unpad_pad {P : Params} {x : Bytes} (h : x.length ≤ P.B) : unpad P (outputOf (pad P x)) = .ok x := by
  obtain ⟨n, h1, hn, hlen, hpad⟩ := pad_eq_append_rep h
  obtain ⟨-, hm⟩ := paddedBlocks_aligned P x.length
  rw [hpad]
  exact unpad_append_rep h1 hn (hlen ▸ hm)

/-- A tail of more than one byte shows in the last two bytes. -/
theorem eq_one_or_eq_of_validTail {P : Params} {w : Bytes} {a b : Byte} (h : ValidTail P (w ++ [a, b])) :
    b = 1#8 ∨ a = b := by
  obtain ⟨x, n, h1, -, heq⟩ := h
  rcases Nat.lt_or_eq_of_le h1 with h2 | rfl
  · obtain ⟨k, rfl⟩ := Nat.exists_eq_add_of_le' h2
    rw [rep_add, ← List.append_assoc] at heq
    have hab : [a, b] = rep _ 2 := (List.append_inj' heq rfl).2
    have hmem : ∀ c ∈ [a, b], c = BitVec.ofNat 8 (k + 2) := fun c hc => List.eq_of_mem_replicate (hab ▸ hc)
    exact .inr ((hmem a (by simp)).trans (hmem b (by simp)).symm)
  · have hlast := congrArg List.getLast? heq
    rw [getLast?_append_rep x _ le_rfl] at hlast
    exact .inl (by simpa using hlast)

-- ---------------------------------------------------------------- the statements

/-- Settles O4: the shape of the answer gives every length and the last byte, and `unpad` inverts `pad`, so `pad` is injective. -/
theorem padProperties : Obligations.PadProperties := by
  refine fun P => ⟨fun x hx => ?shape, pad_of_lt P.B_pos, fun x y hx hy heq => ?injective, fun x f => pad_eq_fail_iff⟩
  case shape =>
    obtain ⟨n, h1, hn, hlen, hpad⟩ := pad_eq_append_rep hx
    obtain ⟨hpos, hm⟩ := paddedBlocks_aligned P x.length
    have hv : (x ++ rep (BitVec.ofNat 8 n) n).length = x.length + n := by simp
    refine ⟨_, n, hpad, hv, hv.trans hlen, ?_, ?_, h1, hn, ?_⟩
    · rwa [hv, hlen]
    · rwa [hv, hlen]
    · rw [getLast?_append_rep x _ h1, Option.map_some, toNat_ofNat_of_le hn]
  case injective =>
    have hxy : Result.ok x = .ok y := by rw [← unpad_pad hx, ← unpad_pad hy, heq]
    exact Result.ok.inj hxy

/-- Settles O5. -/
theorem unpadAcceptsExactlyValidTails : Obligations.UnpadAcceptsExactlyValidTails :=
  fun _ _ => ⟨fun _ => unpad_eq_ok_iff, unpad_eq_invalidInput_iff, unpad_eq_invalidPadding_iff⟩

/-- Settles O6: three blocks that end in the byte 1 are the padding of nothing, and less that byte are too long to pad. -/
theorem unpadInvertsPad : Obligations.UnpadInvertsPad := by
  refine fun P => ⟨fun x hx => unpad_pad hx, rep 0 (3 * P.B - 1) ++ rep (BitVec.ofNat 8 1) 1, rep 0 (3 * P.B - 1),
    unpad_append_rep le_rfl P.B_pos ?aligned, fun x hx heq => ?notPadded, pad_of_gt ?tooLong⟩
  all_goals have hB := P.B_pos
  case aligned =>
    rw [rep_length, Nat.sub_add_cancel (by omega)]
    exact Nat.mul_mod_left _ _
  case notPadded =>
    obtain ⟨n, -, hn, -, hpad⟩ := pad_eq_append_rep hx
    rw [hpad] at heq
    have hlen := congrArg List.length (Result.ok.inj heq)
    simp only [List.length_append, rep_length] at hlen
    omega
  case tooLong => rw [rep_length]; omega

/-- Settles O7: with `n ≥ 2` the byte before the last still has value `n`, so only a tail of one byte can be valid. -/
theorem replacedLastByteIsRejectedUnlessOne : Obligations.ReplacedLastByteIsRejectedUnlessOne := by
  intro P x n b h2 hn hb hm
  have hlen : (x ++ rep (BitVec.ofNat 8 n) (n - 1) ++ [b]).length = x.length + n := by simp; omega
  have hm' : (x.length + n) % P.B = 0 := by simpa using hm
  have hone : b = 1#8 → unpad P (x ++ rep (BitVec.ofNat 8 n) (n - 1) ++ [b]) =
      .ok (x ++ rep (BitVec.ofNat 8 n) (n - 1)) := by
    rintro rfl
    refine unpad_append_rep le_rfl P.B_pos ?_
    rwa [← hlen, List.length_append] at hm'
  refine ⟨⟨fun h h1 => ?_, fun h1 => unpad_of_not_validTail (by omega) (hlen ▸ hm') fun hv => ?_⟩, hone⟩
  · rw [hone h1] at h
    cases h
  · have hsplit : x ++ rep (BitVec.ofNat 8 n) (n - 1) ++ [b] =
        x ++ rep (BitVec.ofNat 8 n) (n - 2) ++ [BitVec.ofNat 8 n, b] := by
      rw [show n - 1 = n - 2 + 1 by omega, rep_add, rep_one]
      simp
    rcases eq_one_or_eq_of_validTail (hsplit ▸ hv) with hb1 | hnb
    · exact h1 hb1
    · exact hb hnb.symm

end Sys2Proof.Machine
end

section
/-! SUPPORT. The commands PAD and UNPAD over a written operand (spec/40_padding.md R85, R86): each runs the codec's function on the
bytes IN holds and draws no free value. -/

namespace Sys2Proof.Machine

/-- A command whose run draws no free value completes with that run's result and invocations (spec/10_state.md R30). -/
theorem exec_completes_of_runOf {i : Instr} {s : State} {r : Result} {calls : List PrimCall}
    (h : runOf s.params i s = ⟨r, calls, false⟩) :
    ∃ t, exec i s = .next t ∧ s.CompletedWith t r calls ∧ s.NoDraw t := by
  refine ⟨_, exec_eq_complete i s, ?_⟩
  rw [h]
  exact ⟨s.completedWith_complete _, s.noDraw_complete rfl⟩

theorem State.Holds.inWritten {s : State} {x : Bytes} (h : s.Holds .inp x) (hl : s.inlen = x.length) :
    s.inWritten = true := by
  rw [State.inWritten, hl, h.isWritten]

theorem padRun_of_holds {P : Params} {s : State} {x : Bytes} (h : s.Holds .inp x) (hl : s.inlen = x.length)
    (hx : x.length ≤ P.B) : padRun P s = ⟨pad P x, [], false⟩ := by
  rw [padRun, if_neg (by omega), h.inOperand hl, h.inWritten hl, Bool.not_true]

theorem unpadRun_of_holds {P : Params} {s : State} {y : Bytes} (h : s.Holds .inp y) (hl : s.inlen = y.length)
    (h0 : 0 < y.length) (hm : y.length % P.B = 0) : unpadRun P s = ⟨unpad P y, [], false⟩ := by
  rw [unpadRun, if_neg (by rw [hl]; omega), h.inOperand hl, h.inWritten hl, Bool.not_true]

/-- PAD over at most one written block completes with what `pad` answers. -/
theorem execPad_completes {s : State} {x v : Bytes} (h : s.Holds .inp x) (hl : s.inlen = x.length)
    (hx : x.length ≤ s.params.B) (hpad : pad s.params x = .ok v) :
    ∃ t, exec .pad s = .next t ∧ t.outlen = v.length ∧ s.CompletedWith t (.ok v) [] ∧ s.NoDraw t := by
  have hrun := padRun_of_holds h hl hx
  rw [hpad] at hrun
  obtain ⟨t, hexec, hcomp, hdraw⟩ := exec_completes_of_runOf (i := .pad) hrun
  exact ⟨t, hexec, hcomp.outlen, hcomp, hdraw⟩

/-- Settles O22. -/
theorem padCompletes : Obligations.PadCompletes := by
  refine fun s x hx hl => ⟨fun hlt => ?_, fun heq => ?_⟩
  · obtain ⟨t, hexec, hlen, hcomp⟩ := execPad_completes hx hl hlt.le (pad_of_lt hlt)
    exact ⟨t, hexec, by rw [hlen, List.length_append, rep_length]; omega, hcomp⟩
  · obtain ⟨t, hexec, hlen, hcomp⟩ := execPad_completes hx hl heq.le (pad_of_eq heq)
    exact ⟨t, hexec, by rw [hlen, List.length_append, rep_length]; omega, hcomp⟩

/-- Settles O23. -/
theorem unpadCompletes : Obligations.UnpadCompletes := by
  intro s x n h1 hn hy hl hm
  have hlen : (x ++ rep (BitVec.ofNat 8 n) n).length = s.inlen := by simp [hl]
  have hrun := unpadRun_of_holds hy hlen.symm (by omega) (hlen ▸ hm)
  rw [unpad_append_rep h1 hn (hl ▸ hm)] at hrun
  exact exec_completes_of_runOf (i := .unpad) hrun

/-- Settles O24. -/
theorem unpadRejectsInvalidTail : Obligations.UnpadRejectsInvalidTail := by
  intro s y hy hl h0 hm hv
  have hrun := unpadRun_of_holds hy hl h0 hm
  rw [unpad_of_not_validTail h0 hm hv] at hrun
  exact exec_completes_of_runOf (i := .unpad) hrun

end Sys2Proof.Machine
end

section
/-! SUPPORT. The XOR Utility (spec/41_xor.md R90 to R93): its two outcomes, the algebra of the byte-wise exclusive-or, and the
command XOR over two written operands. -/

namespace Sys2Proof.Machine

-- ---------------------------------------------------------------- the two outcomes of `xor`

theorem xorSeq_of_length_ne {a b : Bytes} (h : a.length ≠ b.length) : xorSeq a b = .fail .lengthMismatch := by
  rw [xorSeq, if_pos h]

theorem xorSeq_of_length_eq {a b : Bytes} (h : a.length = b.length) : xorSeq a b = .ok (xorBytes a b) := by
  rw [xorSeq, if_neg (not_not_intro h)]

-- ---------------------------------------------------------------- the byte-wise exclusive-or

/-- The length is kept (spec/41_xor.md R90). -/
theorem xorBytes_length_of_length_eq {a b : Bytes} (h : a.length = b.length) : (xorBytes a b).length = a.length := by
  rw [xorBytes_length, ← h, Nat.min_self]

/-- A lane of the result is the exclusive-or of the two lanes; beyond the end all three read 0. -/
theorem xorBytes_getD {a b : Bytes} (h : a.length = b.length) (i : Nat) :
    (xorBytes a b).getD i 0 = a.getD i 0 ^^^ b.getD i 0 := by
  have hlen := xorBytes_length_of_length_eq h
  rcases Nat.lt_or_ge i a.length with hi | hi
  · rw [List.getD_eq_getElem _ _ (hlen ▸ hi), List.getD_eq_getElem _ _ hi, List.getD_eq_getElem _ _ (h ▸ hi),
      xorBytes_getElem]
  · rw [List.getD_eq_default _ _ (hlen ▸ hi), List.getD_eq_default _ _ hi, List.getD_eq_default _ _ (h ▸ hi),
      BitVec.xor_self]
    rfl

theorem xorBytes_comm (a b : Bytes) : xorBytes a b = xorBytes b a := List.zipWith_comm_of_comm BitVec.xor_comm

theorem xorBytes_assoc (a b c : Bytes) : xorBytes (xorBytes a b) c = xorBytes a (xorBytes b c) := by
  simp only [xorBytes, List.zipWith_zipWith_left, List.zipWith_zipWith_right, BitVec.xor_assoc]

theorem xorBytes_self (a : Bytes) : xorBytes a a = rep 0 a.length := by
  simp only [xorBytes, rep, List.zipWith_self, BitVec.xor_self, List.map_const']
  rfl

theorem xorBytes_rep_zero (a : Bytes) : xorBytes a (rep 0 a.length) = a := by
  induction a with
  | nil => rfl
  | cons x a ih =>
    rw [List.length_cons, rep, List.replicate_succ, xorBytes_cons, ← rep, ih]
    exact congrArg (· :: a) BitVec.xor_zero

/-- The second operand cancels: it is its own inverse (spec/41_xor.md R92 (d)). -/
theorem xorBytes_xorBytes_cancel {a b : Bytes} (h : a.length = b.length) : xorBytes (xorBytes a b) b = a := by
  rw [xorBytes_assoc, xorBytes_self, ← h, xorBytes_rep_zero]

theorem slice_xorBytes (a b : Bytes) (i n : Nat) : slice (xorBytes a b) i n = xorBytes (slice a i n) (slice b i n) := by
  simp only [slice, xorBytes, List.drop_zipWith, List.take_zipWith]

theorem xorBytes_append {a b : Bytes} (h : a.length = b.length) (a' b' : Bytes) :
    xorBytes (a ++ a') (b ++ b') = xorBytes a b ++ xorBytes a' b' :=
  List.zipWith_append h

-- ---------------------------------------------------------------- the command XOR

theorem xorRun_of_holds {s : State} {a b : Bytes} (ha : s.Holds .inp a) (hb : s.Holds .aux b) (hla : s.inlen = a.length)
    (hlb : s.auxlen = b.length) (h : a.length = b.length) : xorRun s = ⟨.ok (xorBytes a b), [], false⟩ := by
  have hwritten : s.xorWritten = true := by
    rw [State.xorWritten, hla, hlb, ha.isWritten, hb.isWritten, Bool.and_self]
  rw [xorRun, if_neg (by omega), ha.inOperand hla, hb.auxOperand hlb, xorSeq_of_length_eq h, hwritten, Bool.not_true]

theorem State.readLoc_out (s : State) (i : Nat) : s.readLoc ⟨.out, i⟩ = some (s.out.getD i 0).toNat := rfl

-- ---------------------------------------------------------------- the statements

/-- Settles O8. -/
theorem xorContract : Obligations.XorContract := by
  refine ⟨fun a b h => xorSeq_of_length_ne h, fun a b h => ?lanes, rfl⟩
  case lanes =>
    refine ⟨_, xorSeq_of_length_eq h, xorBytes_length_of_length_eq h, fun i _ j _ => ?_⟩
    rw [xorBytes_getD h, BitVec.getLsbD_xor]

/-- Settles O9: each law of `xor` is a law of the byte-wise exclusive-or. -/
theorem xorLaws : Obligations.XorLaws := by
  intro a b c hab _
  refine ⟨xorSeq_of_length_eq hab, ?comm, xorBytes_assoc a b c, ?identity, ?inverse, xorBytes_xorBytes_cancel hab,
    slice_xorBytes a b, fun a' b' _ => xorBytes_append hab a' b'⟩
  case comm => rw [xorSeq_of_length_eq hab, xorSeq_of_length_eq hab.symm, xorBytes_comm]
  case identity => rw [xorSeq_of_length_eq (rep_length 0 _).symm, xorBytes_rep_zero]
  case inverse => rw [xorSeq_of_length_eq rfl, xorBytes_self]

/-- Settles O25: OUT holds the byte-wise exclusive-or, which a read shows lane by lane. -/
theorem xorCompletes : Obligations.XorCompletes := by
  intro s a b ha hb hla hlb h
  obtain ⟨t, hexec, hcomp, hdraw⟩ := exec_completes_of_runOf (i := .xor) (xorRun_of_holds ha hb hla hlb h)
  refine ⟨t, hexec, ?outlen, hcomp, hdraw, fun i _ => ?read⟩
  case outlen => rw [hcomp.outlen, outputOf, xorBytes_length_of_length_eq h, hla]
  case read => rw [t.readLoc_out, hcomp.out, outputOf, xorBytes_getD h, BitVec.toNat_xor]

end Sys2Proof.Machine
end

section
/-! SUPPORT. Sequences of whole blocks (spec/42_cbc.md R100, R101): cutting into blocks and joining undo each other, and a message
followed by its padding is the blocks `cbc_encrypt` processes. -/

namespace Sys2Proof.Machine

-- ---------------------------------------------------------------- cutting and joining

/-- A slice sees only the bytes before its end. -/
theorem slice_take {a : Bytes} {i n m : Nat} (h : i + n ≤ m) : slice (a.take m) i n = slice a i n := by
  rw [slice, List.drop_take, List.take_take, Nat.min_eq_left (by omega), slice]

/-- Block `j` of `m` lies inside the first `m * B` bytes. -/
theorem block_end_le {j m : Nat} (B : Nat) (h : j < m) : j * B + B ≤ m * B := by
  rw [← Nat.succ_mul]; exact Nat.mul_le_mul_right B h

/-- The blocks see only the bytes they cover. -/
theorem blocks_take (B : Nat) (a : Bytes) (m : Nat) : blocks B (a.take (m * B)) m = blocks B a m :=
  List.map_congr_left fun _ hj => slice_take (block_end_le B (List.mem_range.1 hj))

/-- The first blocks of a sequence are the blocks of a shorter part. -/
theorem take_blocks (B : Nat) (a : Bytes) {t m : Nat} (h : t ≤ m) : (blocks B a m).take t = blocks B a t := by
  rw [blocks, ← List.map_take, List.take_range, Nat.min_eq_left h, blocks]

/-- Two lists of blocks that join to one sequence are one list. -/
theorem eq_of_flatten_eq {B : Nat} (hB : 0 < B) {l l' : List Bytes} (h : ∀ x ∈ l, x.length = B)
    (h' : ∀ x ∈ l', x.length = B) (hf : l.flatten = l'.flatten) : l = l' := by
  have hlen : l.length = l'.length := by
    have := congrArg List.length hf
    rw [length_flatten_of_forall h, length_flatten_of_forall h'] at this
    exact Nat.eq_of_mul_eq_mul_right hB this
  refine List.eq_iff_flatten_eq.2 ⟨hf, ?_⟩
  rw [List.map_congr_left h, List.map_congr_left h', List.map_const', List.map_const', hlen]

/-- Cutting what blocks join to gives the blocks back. -/
theorem blocks_flatten {B : Nat} (hB : 0 < B) {l : List Bytes} (h : ∀ x ∈ l, x.length = B) :
    blocks B l.flatten l.length = l := by
  have hlen := length_flatten_of_forall h
  refine eq_of_flatten_eq hB (fun x => length_of_mem_blocks hlen.ge) h ?_
  rw [flatten_blocks hlen.ge, ← hlen, List.take_length]

/-- Block `j` of what blocks join to is block `j` of the list. -/
theorem slice_flatten {B : Nat} (hB : 0 < B) {l : List Bytes} (h : ∀ x ∈ l, x.length = B) {j : Nat} (hj : j < l.length) :
    l[j]? = some (slice l.flatten (j * B) B) := by
  rw [← blocks_getElem? hj, blocks_flatten hB h]

-- ---------------------------------------------------------------- the message and its padding

/-- The bytes `cbc_encrypt` puts after a message: as many as fill the final chunk, each of that value (R80, R101). -/
def padTail (P : Params) (p : Bytes) : Bytes := rep (BitVec.ofNat 8 (P.B - p.length % P.B)) (P.B - p.length % P.B)

theorem padTail_length (P : Params) (p : Bytes) : (padTail P p).length = P.B - p.length % P.B := rep_length ..

/-- The full chunks and the final chunk are the message (R100). -/
theorem flatten_blocks_append_finalChunk (P : Params) (p : Bytes) :
    (blocks P.B p (p.length / P.B)).flatten ++ finalChunk P.B p = p := by
  have hrest : p.length % P.B = (p.drop (p.length / P.B * P.B)).length := by
    rw [List.length_drop, Nat.mod_eq_sub_div_mul]
  rw [flatten_blocks (Nat.div_mul_le_self ..), finalChunk, slice, hrest, List.take_length, List.take_append_drop]

/-- The codec never fails on the final chunk, which is shorter than a block (R102). -/
theorem pad_finalChunk (P : Params) (p : Bytes) : pad P (finalChunk P.B p) = .ok (finalChunk P.B p ++ padTail P p) := by
  have hlen := finalChunk_length P.B p
  rw [pad_of_lt (hlen ▸ Nat.mod_lt _ P.B_pos), hlen, padTail]

theorem encInputs_eq (P : Params) (p : Bytes) :
    encInputs P p = blocks P.B p (p.length / P.B) ++ [finalChunk P.B p ++ padTail P p] := by
  rw [encInputs, pad_finalChunk, outputOf]

@[simp] theorem encInputs_length (P : Params) (p : Bytes) : (encInputs P p).length = p.length / P.B + 1 := by
  simp [encInputs]

/-- The blocks processed join to the message and its padding. -/
theorem flatten_encInputs (P : Params) (p : Bytes) : (encInputs P p).flatten = p ++ padTail P p := by
  rw [encInputs_eq, List.flatten_append, List.flatten_singleton, ← List.append_assoc, flatten_blocks_append_finalChunk]

/-- Each block processed has `B` bytes (R102). -/
theorem length_of_mem_encInputs {P : Params} {p X : Bytes} (h : X ∈ encInputs P p) : X.length = P.B := by
  rw [encInputs_eq, List.mem_append, List.mem_singleton] at h
  rcases h with h | rfl
  · exact length_of_mem_blocks (Nat.div_mul_le_self ..) h
  · have := Nat.mod_lt p.length P.B_pos
    rw [List.length_append, finalChunk_length, padTail_length]
    omega

/-- The blocks that lie inside the message are its blocks. -/
theorem take_encInputs {P : Params} {p : Bytes} {t : Nat} (h : t * P.B ≤ p.length) :
    (encInputs P p).take t = blocks P.B p t := by
  have ht : t ≤ p.length / P.B := (Nat.le_div_iff_mul_le P.B_pos).2 h
  rw [encInputs_eq, List.take_append_of_le_length (by rwa [blocks_length]), take_blocks _ _ ht]

/-- A block that lies inside the message is a block of the message. -/
theorem encInputs_getElem? {P : Params} {p : Bytes} {j : Nat} (h : j < p.length / P.B) :
    (encInputs P p)[j]? = some (slice p (j * P.B) P.B) := by
  rw [encInputs_eq, List.getElem?_append_left (by rwa [blocks_length]), blocks_getElem? h]

/-- The block processed last is the padded final chunk. -/
theorem encInputs_getElem?_last (P : Params) (p : Bytes) :
    (encInputs P p)[p.length / P.B]? = some (finalChunk P.B p ++ padTail P p) := by
  rw [encInputs_eq, List.getElem?_append_right (by rw [blocks_length]), blocks_length, Nat.sub_self]
  rfl

/-- A padded message followed by another is processed as the blocks of the one and then those of the other. -/
theorem encInputs_append (P : Params) (p1 p2 : Bytes) :
    encInputs P (p1 ++ padTail P p1 ++ p2) = encInputs P p1 ++ encInputs P p2 := by
  have hpad : padTail P (p1 ++ padTail P p1 ++ p2) = padTail P p2 := by
    have hmod : (p1 ++ padTail P p1 ++ p2).length % P.B = p2.length % P.B := by
      rw [← flatten_encInputs, List.length_append, length_flatten_of_forall fun _ => length_of_mem_encInputs,
        Nat.mul_add_mod_self_right]
    rw [padTail, hmod, padTail]
  refine eq_of_flatten_eq P.B_pos (fun _ => length_of_mem_encInputs) (fun X hX => ?_) ?_
  · exact (List.mem_append.1 hX).elim length_of_mem_encInputs length_of_mem_encInputs
  · rw [List.flatten_append, flatten_encInputs, flatten_encInputs, flatten_encInputs, hpad]
    simp only [List.append_assoc]

/-- Settles O10. -/
theorem messageSplitsIntoChunks : Obligations.MessageSplitsIntoChunks := fun P p =>
  ⟨flatten_blocks_append_finalChunk P p, blocks_length .., fun _ hj => blocks_getElem? hj,
    fun _ => length_of_mem_blocks (Nat.div_mul_le_self ..), finalChunk_length ..,
    by rw [← List.length_eq_zero_iff, finalChunk_length]⟩

end Sys2Proof.Machine
end

section
/-! SUPPORT. The invocations of the Block Primitive (spec/42_cbc.md R109): what each command's records carry, and that every record
a step adds to the trace is such a one. -/

namespace Sys2Proof.Machine

-- ---------------------------------------------------------------- the records of a command

/-- Every Block given to `E` has `B` bytes: the chaining state and the block combined with it have. -/
theorem length_of_mem_encFold_input {P : Params} {key chain : Bytes} {Xs : List Bytes} (hc : chain.length = P.B)
    (hX : ∀ X ∈ Xs, X.length = P.B) {r : Bytes × Bytes} (h : r ∈ encFold P key chain Xs) : r.1.length = P.B := by
  induction Xs generalizing chain with
  | nil => cases h
  | cons X Xs ih =>
    rw [encFold_cons, List.mem_cons] at h
    rcases h with rfl | h
    · rw [xorBytes_length, hc, hX X List.mem_cons_self, Nat.min_self]
    · exact ih (P.E_length ..) (fun Y hY => hX Y (List.mem_cons_of_mem _ hY)) h

/-- The records of `cbc_encrypt`: one evaluation of `E` on a Block, under the one key. -/
theorem mem_encCalls {P : Params} {p key iv : Bytes} (hiv : iv.length = P.B) {c : PrimCall} (h : c ∈ encCalls P p key iv) :
    c.dir = .enc ∧ c.block.length = P.B ∧ c.key = key := by
  obtain ⟨r, hr, rfl⟩ := List.mem_map.1 h
  exact ⟨rfl, length_of_mem_encFold_input hiv (fun _ => length_of_mem_encInputs) hr, rfl⟩

@[simp] theorem encCalls_length (P : Params) (p key iv : Bytes) : (encCalls P p key iv).length = p.length / P.B + 1 := by
  simp [encCalls]

theorem decCalls_of_misaligned {P : Params} {c : Bytes} (key : Bytes) (h : c.length = 0 ∨ c.length % P.B ≠ 0) :
    decCalls P c key = [] := by
  rw [decCalls, if_pos h]

theorem decCalls_of_aligned {P : Params} {c : Bytes} (key : Bytes) (h : ¬ (c.length = 0 ∨ c.length % P.B ≠ 0)) :
    decCalls P c key = (blocks P.B c (c.length / P.B)).map fun blk => ⟨.dec, blk, key⟩ := by
  rw [decCalls, if_neg h]

/-- The records of `cbc_decrypt`: one evaluation of `D` on a Block, under the one key. -/
theorem mem_decCalls {P : Params} {c key : Bytes} {r : PrimCall} (h : r ∈ decCalls P c key) :
    r.block.length = P.B ∧ r.key = key := by
  by_cases hc : c.length = 0 ∨ c.length % P.B ≠ 0
  · rw [decCalls_of_misaligned key hc] at h
    cases h
  · rw [decCalls_of_aligned key hc] at h
    obtain ⟨blk, hblk, rfl⟩ := List.mem_map.1 h
    exact ⟨length_of_mem_blocks (Nat.div_mul_le_self ..) hblk, rfl⟩

/-- PAD, UNPAD and XOR invoke nothing (R108). -/
theorem runOf_calls_eq_nil (P : Params) {i : Instr} (s : State) (h : i = .pad ∨ i = .unpad ∨ i = .xor) :
    (runOf P i s).calls = [] := by
  rcases h with rfl | rfl | rfl
  · rw [runOf, padRun]; split <;> rfl
  · rw [runOf, unpadRun]; split <;> rfl
  · rw [runOf, xorRun]; split <;> rfl

/-- Whatever the length check of CBCDEC answers, its records are those of `cbc_decrypt`. -/
theorem cbcdecRun_calls (P : Params) (s : State) : (cbcdecRun P s).calls = decCalls P s.inOperand (s.keyOperand P) := by
  rw [cbcdecRun]
  split
  case isTrue h => rw [decCalls_of_misaligned _ (by rwa [State.inOperand_length])]; rfl
  case isFalse => rfl

/-- Every record of a command carries a Block of `B` bytes and the bytes of KEY (R109). -/
theorem mem_runOf_calls {P : Params} {i : Instr} {s : State} {c : PrimCall} (h : c ∈ (runOf P i s).calls) :
    c.block.length = P.B ∧ c.key = s.keyOperand P := by
  cases i with
  | pad | unpad | xor => rw [runOf_calls_eq_nil P s (by simp)] at h; cases h
  | cbcenc => exact (mem_encCalls (s.ivOperand_length P) h).2
  | cbcdec => exact mem_decCalls (cbcdecRun_calls P s ▸ h)

/-- So does every record of the completion of a word; a malformed one has none (spec/30_encoding.md R64). -/
theorem mem_wordRun_calls {P : Params} {w : BitVec 8} {s : State} {c : PrimCall} (h : c ∈ (wordRun P w s).calls) :
    c.block.length = P.B ∧ c.key = s.keyOperand P := by
  rw [wordRun] at h
  split at h
  · exact mem_runOf_calls h
  · cases h

-- ---------------------------------------------------------------- the trace

/-- What RESET may find of the command in progress are the records of its completion (spec/70_reset_and_hazards.md R153). -/
theorem State.pendingCalls_cases (P : Params) (s : State) :
    s.pendingCalls P = [] ∨ ∃ w, s.pendingCalls P = (wordRun P w s).calls := by
  cases hp : s.pend with
  | none => exact .inl (by simp only [State.pendingCalls, hp])
  | some w =>
    refine .inr ⟨w, ?_⟩
    cases hd : decode w with
    | command i => simp only [State.pendingCalls, wordRun, hp, hd]
    | malformed m => simp only [State.pendingCalls, wordRun, hp, hd, Run.rejected]

/-- An access of the port invokes nothing. -/
@[simp] theorem State.doAccess_trace (s : State) (a : Access) : (s.doAccess a).trace = s.trace := by
  cases a with
  | rd l =>
    rw [State.doAccess]
    rcases s.doRead_cases l with ⟨v, -, h⟩ | ⟨v, -, h⟩ <;> rw [h] <;> rfl
  | wr l v =>
    rw [State.doAccess]
    rcases s.doWrite_cases l v with ⟨-, h⟩ | ⟨-, h⟩ | ⟨-, h⟩ | ⟨-, -, h⟩ | ⟨-, -, -, -, h⟩ <;> simp [h]

/-- A trace stays well-sized when some of the records of a word's completion are added to it. -/
theorem State.TraceInv.append_wordRun {P : Params} {s t u : State} {w : BitVec 8} {calls : List PrimCall}
    (h : s.TraceInv P) (hsub : calls ⊆ (wordRun P w u).calls) (ht : t.trace = s.trace ++ calls) : t.TraceInv P := by
  intro c hc
  rw [ht, List.mem_append] at hc
  rcases hc with hc | hc
  · exact h c hc
  · obtain ⟨hblock, hkey⟩ := mem_wordRun_calls (hsub hc)
    exact ⟨hblock, by rw [hkey, State.keyOperand_length]⟩

/-- RESET adds at most the first records of the command it abandons (spec/70_reset_and_hazards.md R153). -/
theorem State.TraceInv.doReset {P : Params} {s : State} (h : s.TraceInv P) : (s.doReset P).TraceInv P := by
  have hsame {t : State} (ht : t.trace = s.trace) : t.TraceInv P := fun c hc => h c (ht ▸ hc)
  by_cases hb : s.busy = true
  · have htrace := State.doReset_trace P s
    rw [if_pos hb] at htrace
    rcases s.pendingCalls_cases P with hnil | ⟨w, hcalls⟩
    · exact hsame (by rw [htrace, hnil, List.take_nil, List.append_nil])
    · exact h.append_wordRun (w := w) (u := s) (by rw [← hcalls]; exact List.take_subset ..) htrace
  · exact hsame (by rw [State.doReset_trace, if_neg hb])

/-- Settles O48: completion adds the records of its word, RESET the first of them, and no other step adds any. -/
theorem stepKeepsPrimitiveArgumentLengths : Obligations.StepKeepsPrimitiveArgumentLengths := by
  intro s t h hstep
  rw [step_params hstep]
  rcases step_next hstep with ⟨-, rfl, -⟩ | ⟨-, es, w, -, -, rfl⟩ | ⟨es, -, rfl⟩ | ⟨a, es, -, -, -, rfl⟩
  · exact h
  · exact h.append_wordRun (List.Subset.refl _) rfl
  · exact State.TraceInv.doReset (s := s.withEvents es) h
  · intro c hc
    rw [State.doAccess_trace] at hc
    exact h c hc

end Sys2Proof.Machine
end

section
/-! SUPPORT. Encryption (spec/42_cbc.md R101 to R103, R117, R118): the ciphertext blocks one by one, and the chaining state that
carries from one part of a message to the next. -/

namespace Sys2Proof.Machine

-- ---------------------------------------------------------------- the ciphertext blocks

/-- The blocks `C_0 .. C_q` the loop of `cbc_encrypt` makes of `X_0 .. X_q` (R101). -/
def cipherBlocks (P : Params) (key chain : Bytes) (Xs : List Bytes) : List Bytes := (encFold P key chain Xs).map Prod.snd

theorem cbcEncrypt_eq (P : Params) (p key iv : Bytes) :
    cbcEncrypt P p key iv = (cipherBlocks P key iv (encInputs P p)).flatten := rfl

theorem cipherBlocks_cons (P : Params) (key chain X : Bytes) (Xs : List Bytes) :
    cipherBlocks P key chain (X :: Xs) =
      P.E (xorBytes chain X) key :: cipherBlocks P key (P.E (xorBytes chain X) key) Xs := rfl

@[simp] theorem cipherBlocks_length (P : Params) (key chain : Bytes) (Xs : List Bytes) :
    (cipherBlocks P key chain Xs).length = Xs.length := by simp [cipherBlocks]

theorem length_of_mem_cipherBlocks {P : Params} {key chain C : Bytes} {Xs : List Bytes}
    (h : C ∈ cipherBlocks P key chain Xs) : C.length = P.B := by
  obtain ⟨r, hr, rfl⟩ := List.mem_map.1 h
  exact length_of_mem_encFold hr

/-- The second part of a list of blocks is chained to the last ciphertext block of the first. -/
theorem cipherBlocks_append (P : Params) (key chain : Bytes) (Xs Ys : List Bytes) :
    cipherBlocks P key chain (Xs ++ Ys) =
      cipherBlocks P key chain Xs ++ cipherBlocks P key ((cipherBlocks P key chain Xs).getLastD chain) Ys := by
  induction Xs generalizing chain with
  | nil => rfl
  | cons X Xs ih =>
    rw [List.cons_append, cipherBlocks_cons, cipherBlocks_cons, ih, List.getLastD_cons, List.cons_append]

/-- Turn `j` of the loop: the Block given to `E` is the block xor-ed with the chaining state, which is the IV before the first
turn and the previous ciphertext block after it (R101). -/
theorem encFold_getElem? (P : Params) (key chain : Bytes) (Xs : List Bytes) (j : Nat) :
    (encFold P key chain Xs)[j]? = Xs[j]?.map fun X =>
      (xorBytes (if j = 0 then chain else (cipherBlocks P key chain Xs).getD (j - 1) []) X,
        P.E (xorBytes (if j = 0 then chain else (cipherBlocks P key chain Xs).getD (j - 1) []) X) key) := by
  induction Xs generalizing chain j with
  | nil => simp
  | cons X Xs ih =>
    rw [encFold_cons, cipherBlocks_cons]
    cases j with
    | zero => simp
    | succ j =>
      rw [List.getElem?_cons_succ, ih, List.getElem?_cons_succ]
      cases j <;> simp

/-- Block `j` of a ciphertext is the `j`-th the loop makes. -/
theorem cipherBlocks_getElem? {P : Params} {p : Bytes} (key iv : Bytes) {j : Nat} (h : j < p.length / P.B + 1) :
    (cipherBlocks P key iv (encInputs P p))[j]? = some (slice (cbcEncrypt P p key iv) (j * P.B) P.B) :=
  slice_flatten P.B_pos (fun _ => length_of_mem_cipherBlocks) (by simpa using h)

/-- A ciphertext cut into blocks is what the loop makes. -/
theorem blocks_cbcEncrypt (P : Params) (p key iv : Bytes) :
    blocks P.B (cbcEncrypt P p key iv) ((cbcEncrypt P p key iv).length / P.B) = cipherBlocks P key iv (encInputs P p) := by
  have hlen : (cbcEncrypt P p key iv).length / P.B = (cipherBlocks P key iv (encInputs P p)).length := by
    rw [cbcEncrypt_length, Nat.mul_div_cancel _ P.B_pos, cipherBlocks_length, encInputs_length]
  rw [hlen, cbcEncrypt_eq, blocks_flatten P.B_pos fun _ => length_of_mem_cipherBlocks]

/-- The first `t` ciphertext blocks are made of the first `t` blocks of the message alone (R117). -/
theorem take_cbcEncrypt {P : Params} {p : Bytes} (key iv : Bytes) {t : Nat} (h : t * P.B ≤ p.length) :
    (cbcEncrypt P p key iv).take (t * P.B) = (cipherBlocks P key iv (blocks P.B p t)).flatten := by
  have hlen : (cipherBlocks P key iv (blocks P.B p t)).flatten.length = t * P.B := by
    rw [length_flatten_of_forall fun _ => length_of_mem_cipherBlocks, cipherBlocks_length, blocks_length]
  rw [cbcEncrypt_eq, ← List.take_append_drop t (encInputs P p), take_encInputs h, cipherBlocks_append, List.flatten_append,
    List.take_left' hlen]

/-- Messages that agree on their first `t` blocks have ciphertexts that do (R117). -/
theorem take_cbcEncrypt_congr {P : Params} {p p' : Bytes} (key iv : Bytes) {t : Nat} (h : t * P.B ≤ p.length)
    (h' : t * P.B ≤ p'.length) (heq : p.take (t * P.B) = p'.take (t * P.B)) :
    (cbcEncrypt P p key iv).take (t * P.B) = (cbcEncrypt P p' key iv).take (t * P.B) := by
  rw [take_cbcEncrypt key iv h, take_cbcEncrypt key iv h', ← blocks_take, heq, blocks_take]

/-- The last ciphertext block is the chaining state the loop ends with. -/
theorem getLastD_cipherBlocks (P : Params) (p key iv : Bytes) :
    (cipherBlocks P key iv (encInputs P p)).getLastD iv = slice (cbcEncrypt P p key iv) (p.length / P.B * P.B) P.B := by
  rw [List.getLastD_eq_getLast?, List.getLast?_eq_getElem?, cipherBlocks_length, encInputs_length, Nat.add_sub_cancel,
    cipherBlocks_getElem? key iv (Nat.lt_succ_self _), Option.getD_some]

-- ---------------------------------------------------------------- the statements

/-- Settles O11: the equations are the turns of the loop, and the chaining state is always one block, so no xor fails. -/
theorem encryptEquations : Obligations.EncryptEquations := by
  intro P p key iv hiv
  refine ⟨encInputs P p, cipherBlocks P key iv (encInputs P p), encInputs_length .., by simp, fun j => encInputs_getElem?,
    ⟨_, encInputs_getElem?_last .., pad_finalChunk ..⟩, fun _ => length_of_mem_encInputs, fun j hj => ?turn,
    encCalls_length .., rfl⟩
  case turn =>
    have hjX : j < (encInputs P p).length := by rw [encInputs_length]; omega
    have hX : (encInputs P p)[j]? = some ((encInputs P p).getD j []) := by
      rw [List.getD_eq_getElem _ _ hjX, List.getElem?_eq_getElem hjX]
    have hturn := encFold_getElem? P key iv (encInputs P p) j
    rw [hX, Option.map_some] at hturn
    refine ⟨xorSeq_of_length_eq ?_, ?_, ?_⟩
    · rw [length_of_mem_encInputs (List.mem_of_getElem? hX)]
      split
      · exact hiv
      · have hjC : j - 1 < (cipherBlocks P key iv (encInputs P p)).length := by rw [cipherBlocks_length]; omega
        rw [List.getD_eq_getElem _ _ hjC]
        exact length_of_mem_cipherBlocks (List.getElem_mem hjC)
    · rw [cipherBlocks, List.getElem?_map, ← cipherBlocks, hturn, Option.map_some]
    · rw [encCalls, List.getElem?_map, hturn, Option.map_some]

/-- Settles O21: the padded first part is whole blocks, and the second part is chained to the last ciphertext block. -/
theorem splitMessageKeepsInnerPadding : Obligations.SplitMessageKeepsInnerPadding := by
  intro P p1 p2 key iv
  rw [← padTail, cbcEncrypt_eq P (p1 ++ padTail P p1 ++ p2), encInputs_append, cipherBlocks_append, getLastD_cipherBlocks,
    List.flatten_append, ← cbcEncrypt_eq, ← cbcEncrypt_eq]

end Sys2Proof.Machine
end

section
/-! SUPPORT. Decryption (spec/42_cbc.md R104 to R107, R114): the recovered blocks one by one, and everything `cbc_decrypt` can
answer. -/

namespace Sys2Proof.Machine

-- ---------------------------------------------------------------- the recovered blocks

@[simp] theorem recovered_length (P : Params) (c key iv : Bytes) : (recovered P c key iv).length = c.length / P.B := by
  simp [recovered]

/-- A recovered block is what `D` answers xor-ed with the IV or the previous ciphertext block (R105). -/
theorem recovered_getElem? {P : Params} {c : Bytes} (key iv : Bytes) {j : Nat} (h : j < c.length / P.B) :
    (recovered P c key iv)[j]? = some
      (xorBytes (P.D (slice c (j * P.B) P.B) key) (if j = 0 then iv else slice c ((j - 1) * P.B) P.B)) := by
  have hprev : (blocks P.B c (c.length / P.B)).getD (j - 1) [] = slice c ((j - 1) * P.B) P.B := by
    rw [List.getD_eq_getElem?_getD, blocks_getElem? (by omega), Option.getD_some]
  rw [recovered, decFold_getElem?, blocks_getElem? h, Option.map_some, hprev]

/-- What a block of `D` is xor-ed with is one block (R105). -/
theorem length_of_chained {P : Params} {c iv : Bytes} (hiv : iv.length = P.B) {j : Nat} (h : j < c.length / P.B) :
    (if j = 0 then iv else slice c ((j - 1) * P.B) P.B).length = P.B := by
  split
  · exact hiv
  · have hend := block_end_le P.B (show j - 1 < c.length / P.B by omega)
    exact slice_length_of_le (hend.trans (Nat.div_mul_le_self ..))

theorem length_of_mem_recovered {P : Params} {c key iv R : Bytes} (hiv : iv.length = P.B)
    (h : R ∈ recovered P c key iv) : R.length = P.B := by
  obtain ⟨j, hj, hR⟩ := List.mem_iff_getElem.1 h
  rw [recovered_length] at hj
  have hget := recovered_getElem? key iv hj
  rw [List.getElem?_eq_getElem (by simpa using hj), hR] at hget
  rw [Option.some.inj hget, xorBytes_length, P.D_length, length_of_chained hiv hj, Nat.min_self]

/-- The recovered blocks of an aligned sequence are together as long as it. -/
theorem flatten_recovered_length {P : Params} {c key iv : Bytes} (hiv : iv.length = P.B) (hm : c.length % P.B = 0) :
    (recovered P c key iv).flatten.length = c.length := by
  rw [length_flatten_of_forall fun _ => length_of_mem_recovered hiv, recovered_length]
  exact Nat.div_mul_cancel (Nat.dvd_of_mod_eq_zero hm)

/-- An aligned non-empty sequence has a last recovered block. -/
theorem exists_recovered_eq_concat {P : Params} {c : Bytes} (key iv : Bytes) (h0 : 0 < c.length) (hm : c.length % P.B = 0) :
    ∃ R last, recovered P c key iv = R ++ [last] := by
  have hpos : 0 < c.length / P.B := Nat.div_pos (Nat.le_of_dvd h0 (Nat.dvd_of_mod_eq_zero hm)) P.B_pos
  rcases List.eq_nil_or_concat (recovered P c key iv) with hnil | ⟨R, last, h⟩
  · rw [← recovered_length P c key iv, hnil] at hpos
    exact absurd hpos (Nat.lt_irrefl 0)
  · exact ⟨R, last, h.trans List.concat_eq_append⟩

/-- A recovered block depends on its own ciphertext block and the one before it only. -/
theorem recovered_getElem?_congr {P : Params} {c c' : Bytes} (key iv : Bytes) {j : Nat} (hlen : c'.length = c.length)
    (h : ∀ k, k = j ∨ k + 1 = j → k < c.length / P.B → slice c (k * P.B) P.B = slice c' (k * P.B) P.B) :
    (recovered P c' key iv)[j]? = (recovered P c key iv)[j]? := by
  rcases Nat.lt_or_ge j (c.length / P.B) with hj | hj
  · rw [recovered_getElem? key iv hj, recovered_getElem? key iv (hlen ▸ hj), h j (.inl rfl) hj]
    split
    · rfl
    · rw [h (j - 1) (.inr (by omega)) (by omega)]
  · rw [List.getElem?_eq_none (by rwa [recovered_length, hlen]), List.getElem?_eq_none (by rwa [recovered_length])]

-- ---------------------------------------------------------------- what `cbc_decrypt` answers

theorem cbcDecrypt_of_misaligned {P : Params} {c : Bytes} (key iv : Bytes) (h : c.length = 0 ∨ c.length % P.B ≠ 0) :
    cbcDecrypt P c key iv = .fail .invalidInput := by
  rw [cbcDecrypt, if_pos h]

/-- On an aligned non-empty sequence the codec is applied to the last recovered block (R105). -/
theorem cbcDecrypt_of_aligned {P : Params} {c : Bytes} (key iv : Bytes) (h0 : 0 < c.length) (hm : c.length % P.B = 0) :
    cbcDecrypt P c key iv = unpadLast P (recovered P c key iv) := by
  rw [cbcDecrypt, if_neg (by omega), recovered]

section
variable {P : Params} {c key iv last : Bytes} {R : List Bytes}

theorem cbcDecrypt_of_unpad_ok {v : Bytes} (h0 : 0 < c.length) (hm : c.length % P.B = 0)
    (hR : recovered P c key iv = R ++ [last]) (hu : unpad P last = .ok v) :
    cbcDecrypt P c key iv = .ok (R.flatten ++ v) := by
  rw [cbcDecrypt_of_aligned key iv h0 hm, hR, unpadLast_append, hu]

theorem cbcDecrypt_of_unpad_fail {f : Failure} (h0 : 0 < c.length) (hm : c.length % P.B = 0)
    (hR : recovered P c key iv = R ++ [last]) (hu : unpad P last = .fail f) : cbcDecrypt P c key iv = .fail f := by
  rw [cbcDecrypt_of_aligned key iv h0 hm, hR, unpadLast_append, hu]

end

/-- Everything `cbc_decrypt` can answer: InvalidInput by the length alone, or by the last recovered block its padding stripped or
InvalidPadding (R104, R105). -/
theorem cbcDecrypt_cases {P : Params} {c key iv : Bytes} (hiv : iv.length = P.B) :
    ((c.length = 0 ∨ c.length % P.B ≠ 0) ∧ cbcDecrypt P c key iv = .fail .invalidInput) ∨
    (0 < c.length ∧ c.length % P.B = 0 ∧ cbcDecrypt P c key iv = .fail .invalidPadding) ∨
    (0 < c.length ∧ c.length % P.B = 0 ∧ ∃ R x n, 1 ≤ n ∧ n ≤ P.B ∧
      recovered P c key iv = R ++ [x ++ rep (BitVec.ofNat 8 n) n] ∧ cbcDecrypt P c key iv = .ok (R.flatten ++ x)) := by
  by_cases hc : c.length = 0 ∨ c.length % P.B ≠ 0
  · exact .inl ⟨hc, cbcDecrypt_of_misaligned key iv hc⟩
  · obtain ⟨h0, hm⟩ : 0 < c.length ∧ c.length % P.B = 0 := by omega
    obtain ⟨R, last, hR⟩ := exists_recovered_eq_concat key iv h0 hm
    have hlast : last.length = P.B := length_of_mem_recovered hiv (hR ▸ List.mem_concat_self)
    rcases unpad_cases (by rw [hlast]; exact P.B_pos) (by rw [hlast, Nat.mod_self]) with ⟨x, n, h1, hn, rfl, hu⟩ | hu
    · exact .inr (.inr ⟨h0, hm, R, x, n, h1, hn, hR, cbcDecrypt_of_unpad_ok h0 hm hR hu⟩)
    · exact .inr (.inl ⟨h0, hm, cbcDecrypt_of_unpad_fail h0 hm hR hu⟩)

theorem cbcDecrypt_ne_invalidInput {P : Params} {c key iv : Bytes} (hiv : iv.length = P.B) (h0 : 0 < c.length)
    (hm : c.length % P.B = 0) : cbcDecrypt P c key iv ≠ .fail .invalidInput := by
  rcases cbcDecrypt_cases (c := c) (key := key) hiv with ⟨hmis, -⟩ | ⟨-, -, h⟩ | ⟨-, -, R, x, n, -, -, -, h⟩
  · omega
  · simp [h]
  · simp [h]

/-- Two xor-s with one middle operand leave the outer two (spec/41_xor.md R92 (e)). -/
theorem xorBytes_xorBytes_middle {a b : Bytes} (h : a.length = b.length) (c : Bytes) :
    xorBytes (xorBytes a b) (xorBytes b c) = xorBytes a c := by
  rw [← xorBytes_assoc, xorBytes_xorBytes_cancel h]

-- ---------------------------------------------------------------- the statements

/-- Settles O12. -/
theorem ciphertextLength : Obligations.CiphertextLength := by
  intro P p key iv
  rw [cbcEncrypt_length]
  exact ⟨rfl, Nat.mul_mod_left .., Nat.mul_lt_mul_of_pos_right (Nat.lt_succ_self _) P.B_pos, lt_paddedLength ..,
    Nat.le_mul_of_pos_left _ (Nat.succ_pos _), encCalls_length .., fun c hc => cbcDecrypt_of_misaligned key iv (.inr hc)⟩

/-- Settles O13. -/
theorem decryptPrecondition : Obligations.DecryptPrecondition := fun P _ key iv hiv =>
  ⟨fun h => ⟨cbcDecrypt_of_misaligned key iv h, decCalls_of_misaligned key h⟩,
    fun hm hB => cbcDecrypt_ne_invalidInput hiv (P.B_pos.trans hB) hm⟩

/-- Settles O14: the recovered blocks are one for each ciphertext block, and the last has a block's length, so the codec can fail on
it with InvalidPadding only. -/
theorem decryptEquations : Obligations.DecryptEquations := by
  intro P c key iv hiv h0 hm
  obtain ⟨R, last, hR⟩ := exists_recovered_eq_concat key iv h0 hm
  have hlen : (R ++ [last]).length = c.length / P.B := by rw [← hR, recovered_length]
  refine ⟨R, last, by simpa using hlen, ?_, ?_, fun v => cbcDecrypt_of_unpad_ok h0 hm hR, fun f hu => ?_⟩
  · rw [← hR]
    exact fun j => recovered_getElem? key iv
  · rw [← hR]
    exact fun _ => length_of_mem_recovered hiv
  · have hdec := cbcDecrypt_of_unpad_fail h0 hm hR hu
    rcases cbcDecrypt_cases (c := c) (key := key) hiv with ⟨hmis, -⟩ | ⟨-, -, h⟩ | ⟨-, -, _, _, _, -, -, -, h⟩
    · omega
    · exact ⟨Result.fail.inj (hdec.symm.trans h), h⟩
    · cases hdec.symm.trans h

/-- Settles O15: the recovered bytes are the result followed by the `n` bytes of padding. -/
theorem decryptResultLength : Obligations.DecryptResultLength := by
  intro P c key iv hiv
  rcases cbcDecrypt_cases (c := c) (key := key) hiv with ⟨-, h⟩ | ⟨-, -, h⟩ | ⟨-, hm, R, x, n, h1, hn, hR, h⟩
  · simp [h]
  · simp [h]
  · refine ⟨fun v hv => ?ok, fun f hf => by simp [h] at hf⟩
    case ok =>
      obtain rfl : R.flatten ++ x = v := Result.ok.inj (h.symm.trans hv)
      have hlast : (x ++ rep (BitVec.ofNat 8 n) n).length = P.B := length_of_mem_recovered hiv (hR ▸ List.mem_concat_self)
      have hflat : (recovered P c key iv).flatten = R.flatten ++ x ++ rep (BitVec.ofNat 8 n) n := by
        rw [hR, List.flatten_append, List.flatten_singleton, List.append_assoc]
      have hlen : (R.flatten ++ x).length + n = c.length := by
        have hall := flatten_recovered_length (key := key) hiv hm
        rwa [hflat, List.length_append, rep_length] at hall
      have hx : n = P.B → x = [] := by
        rintro rfl
        rw [List.length_append, rep_length] at hlast
        exact List.length_eq_zero_iff.1 (by omega)
      refine ⟨_, n, by rw [hR, List.getLast?_concat], hlast, ?_, h1, hn, hlen, ?_, fun hB => ?_, fun hB hc => ?_⟩
      · rw [getLast?_append_rep x _ h1, Option.map_some, toNat_ofNat_of_le hn]
      · rw [hflat, List.take_left' (by omega)]
      · rw [hx hB, hR, List.dropLast_concat, List.append_nil]
      · exact List.length_eq_zero_iff.1 (by omega)

/-- Settles O16. -/
theorem decryptFailureTiming : Obligations.DecryptFailureTiming := by
  intro P c key iv f hiv hf
  rcases cbcDecrypt_cases (c := c) (key := key) hiv with ⟨hc, h⟩ | ⟨h0, hm, h⟩ | ⟨-, -, R, x, n, -, -, -, h⟩
  · exact .inl ⟨Result.fail.inj (hf.symm.trans h), decCalls_of_misaligned key hc⟩
  · have hB : P.B ≤ c.length := Nat.le_of_dvd h0 (Nat.dvd_of_mod_eq_zero hm)
    exact .inr ⟨Result.fail.inj (hf.symm.trans h), Nat.div_pos hB P.B_pos, decCalls_of_aligned key (by omega)⟩
  · cases hf.symm.trans h

/-- Settles O18: a recovered block sees two ciphertext blocks, and of the earlier one it is the xor. -/
theorem ciphertextChangeIsLocal : Obligations.CiphertextChangeIsLocal := by
  intro P c c' key iv m i hc hc' hi hsame
  have hm : c.length / P.B = m := by rw [hc, Nat.mul_div_cancel _ P.B_pos]
  have hm' : c'.length / P.B = m := by rw [hc', Nat.mul_div_cancel _ P.B_pos]
  refine ⟨fun j hj => ?elsewhere, fun hi1 => ?next⟩
  case elsewhere =>
    exact recovered_getElem?_congr key iv (hc'.trans hc.symm) fun k hk hkm => hsame k (hm ▸ hkm) (by omega)
  case next =>
    have hblock : (slice c (i * P.B) P.B).length = P.B := slice_length_of_le (hc ▸ block_end_le P.B hi)
    have hR := recovered_getElem? key iv (show i + 1 < c.length / P.B by omega)
    rw [List.getD_eq_getElem?_getD, hR, recovered_getElem? key iv (by omega), Option.getD_some,
      hsame (i + 1) hi1 (by omega), if_neg (Nat.succ_ne_zero i), if_neg (Nat.succ_ne_zero i), Nat.add_sub_cancel,
      xorBytes_xorBytes_middle (by rw [P.D_length, hblock])]

end Sys2Proof.Machine
end

section
/-! SUPPORT. The laws under PRIM_INV (spec/42_cbc.md R112, R115, R117): decryption recovers the blocks encryption processed, and `D`
does not identify two blocks. -/

namespace Sys2Proof.Machine

-- ---------------------------------------------------------------- decryption inverts encryption

/-- Under PRIM_INV the loop of `cbc_decrypt` recovers the blocks of the loop of `cbc_encrypt`, whatever the chaining state. -/
theorem decFold_cipherBlocks {P : Params} (hP : P.PrimInv) {key chain : Bytes} {Xs : List Bytes} (hk : key.length = P.K)
    (hc : chain.length = P.B) (hX : ∀ X ∈ Xs, X.length = P.B) :
    decFold P key chain (cipherBlocks P key chain Xs) = Xs := by
  induction Xs generalizing chain with
  | nil => rfl
  | cons X Xs ih =>
    have hcX : X.length = chain.length := (hX X List.mem_cons_self).trans hc.symm
    have hcombined : (xorBytes chain X).length = P.B := by rw [xorBytes_length_of_length_eq hcX.symm, hc]
    rw [cipherBlocks_cons, decFold_cons, hP _ _ hcombined hk, xorBytes_comm chain X, xorBytes_xorBytes_cancel hcX,
      ih (P.E_length ..) fun Y hY => hX Y (List.mem_cons_of_mem _ hY)]

section
variable {P : Params} (hP : P.PrimInv) {p key iv : Bytes} (hk : key.length = P.K) (hiv : iv.length = P.B)
include hP hk hiv

theorem recovered_cbcEncrypt : recovered P (cbcEncrypt P p key iv) key iv = encInputs P p := by
  rw [recovered, blocks_cbcEncrypt, decFold_cipherBlocks hP hk hiv fun _ => length_of_mem_encInputs]

/-- A block of the message, from its ciphertext block and the one before it. -/
theorem slice_eq_of_cbcEncrypt {j : Nat} (h : j < p.length / P.B) :
    slice p (j * P.B) P.B =
      xorBytes (P.D (slice (cbcEncrypt P p key iv) (j * P.B) P.B) key)
        (if j = 0 then iv else slice (cbcEncrypt P p key iv) ((j - 1) * P.B) P.B) := by
  have hj : j < (cbcEncrypt P p key iv).length / P.B := by
    rw [cbcEncrypt_length, Nat.mul_div_cancel _ P.B_pos]
    omega
  rw [← Option.some.injEq, ← encInputs_getElem? h, ← recovered_getElem? key iv hj, recovered_cbcEncrypt hP hk hiv]

/-- R112. -/
theorem cbcDecrypt_cbcEncrypt : cbcDecrypt P (cbcEncrypt P p key iv) key iv = .ok p := by
  have h0 : 0 < (cbcEncrypt P p key iv).length := by
    rw [cbcEncrypt_length]
    exact Nat.zero_lt_of_lt (lt_paddedLength P p.length)
  have hm : (cbcEncrypt P p key iv).length % P.B = 0 := by rw [cbcEncrypt_length, Nat.mul_mod_left]
  have hR := (recovered_cbcEncrypt hP hk hiv).trans (encInputs_eq P p)
  have hfin : (finalChunk P.B p).length ≤ P.B := by
    rw [finalChunk_length]
    exact (Nat.mod_lt _ P.B_pos).le
  have hu := unpad_pad hfin
  rw [pad_finalChunk, outputOf] at hu
  rw [cbcDecrypt_of_unpad_ok h0 hm hR hu, flatten_blocks_append_finalChunk]

end

-- ---------------------------------------------------------------- the primitive on blocks

/-- Under PRIM_INV `D` takes two blocks to two blocks: it is onto the blocks, of which there are finitely many (R115). -/
theorem injOn_D {P : Params} (hP : P.PrimInv) {key : Bytes} (hk : key.length = P.K) :
    Set.InjOn (P.D · key) {x | x.length = P.B} := by
  have hmaps : Set.MapsTo (P.D · key) {x | x.length = P.B} {x | x.length = P.B} := fun x _ => P.D_length x key
  have honto : Set.SurjOn (P.D · key) {x | x.length = P.B} {x | x.length = P.B} :=
    fun x hx => ⟨P.E x key, P.E_length .., hP x key hx hk⟩
  exact (((List.finite_length_eq Byte P.B).surjOn_iff_bijOn_of_mapsTo hmaps).1 honto).injOn

theorem xorBytes_right_cancel {a b c : Bytes} (ha : a.length = c.length) (hb : b.length = c.length)
    (h : xorBytes a c = xorBytes b c) : a = b := by
  rw [← xorBytes_xorBytes_cancel ha, h, xorBytes_xorBytes_cancel hb]

/-- Parameters without PRIM_INV: one-byte blocks and keys, and both primitives answer 0 always. -/
def zeroPrimitive : Params where
  blockSizeLess1 := 0
  keyLenLess1 := 0
  lenWidthLess1 := 0
  encByte := fun _ _ _ => 0
  decByte := fun _ _ _ => 0

-- ---------------------------------------------------------------- the statements

/-- Settles O17: without PRIM_INV the one padded block of the empty message comes back as the invalid tail 0. -/
theorem roundTrip : Obligations.RoundTrip :=
  ⟨fun _ hP _ _ _ hk hiv => cbcDecrypt_cbcEncrypt hP hk hiv, zeroPrimitive, [], [0], [0], by decide⟩

/-- Settles O19: the chaining blocks are the same, so equal recovered blocks would be equal answers of `D`. -/
theorem changedBlockRecoversDifferently : Obligations.ChangedBlockRecoversDifferently := by
  refine ⟨fun P hP c c' key iv m i hc hc' hi hk hiv hsame hne hR => hne ?_,
    zeroPrimitive, [0], [1], [0], [0], by decide⟩
  have hm : i < c.length / P.B := by rwa [hc, Nat.mul_div_cancel _ P.B_pos]
  have hm' : i < c'.length / P.B := by rwa [hc', Nat.mul_div_cancel _ P.B_pos]
  have hchain : (if i = 0 then iv else slice c' ((i - 1) * P.B) P.B) =
      if i = 0 then iv else slice c ((i - 1) * P.B) P.B := by
    split
    · rfl
    · exact (hsame (i - 1) (by omega) (by omega)).symm
  have hlen := length_of_chained hiv hm
  rw [recovered_getElem? key iv hm, recovered_getElem? key iv hm', hchain] at hR
  have hD := xorBytes_right_cancel (by rw [P.D_length, hlen]) (by rw [P.D_length, hlen]) (Option.some.inj hR)
  have hC : (slice c (i * P.B) P.B).length = P.B := slice_length_of_le (hc ▸ block_end_le P.B hi)
  have hC' : (slice c' (i * P.B) P.B).length = P.B := slice_length_of_le (hc' ▸ block_end_le P.B hi)
  exact (injOn_D hP hk hC' hC hD).symm

/-- Settles O20: the first ciphertext blocks are made of the first blocks of the message; and with the ciphertext before block `j`
the same, equal ciphertext blocks `j` would recover to equal blocks of the message. -/
theorem encryptionPrefixDependence : Obligations.EncryptionPrefixDependence := by
  refine ⟨fun _ _ _ key iv _ => take_cbcEncrypt_congr key iv, fun P hP p p' key iv j h h' hk hiv heq hne hC => hne ?_⟩
  have hj : j < p.length / P.B := (Nat.le_div_iff_mul_le P.B_pos).2 h
  have hj' : j < p'.length / P.B := (Nat.le_div_iff_mul_le P.B_pos).2 h'
  have hjB : j * P.B ≤ (j + 1) * P.B := Nat.mul_le_mul_right _ (Nat.le_succ j)
  have hbefore := take_cbcEncrypt_congr key iv (hjB.trans h) (hjB.trans h') heq
  rw [slice_eq_of_cbcEncrypt hP hk hiv hj, slice_eq_of_cbcEncrypt hP hk hiv hj', hC]
  split
  · rfl
  · have hend := block_end_le P.B (show j - 1 < j by omega)
    rw [← slice_take hend, hbefore, slice_take hend]

end Sys2Proof.Machine
end

section
/-! SUPPORT. The commands CBCENC and CBCDEC (spec/42_cbc.md R108 to R111), the trace of every command, and that a command's result
is decided by the operands it reads (R118). -/

namespace Sys2Proof.Machine

-- ---------------------------------------------------------------- the two commands over written operands

section
variable {P : Params} {s : State} {x key iv : Bytes} (hx : s.Holds .inp x) (hl : s.inlen = x.length)
  (hkey : s.Holds .key key) (hk : key.length = P.K) (hvec : s.Holds .iv iv) (hiv : iv.length = P.B)
include hx hl hkey hk hvec hiv

theorem State.Holds.cbcWritten : s.cbcWritten P = true := by
  rw [State.cbcWritten, hl, ← hk, ← hiv, hx.isWritten, hkey.isWritten, hvec.isWritten, Bool.and_self, Bool.and_self]

theorem cbcencRun_of_holds : cbcencRun P s = ⟨.ok (cbcEncrypt P x key iv), encCalls P x key iv, false⟩ := by
  rw [cbcencRun, hx.inOperand hl, hkey.keyOperand hk, hvec.ivOperand hiv, hx.cbcWritten hl hkey hk hvec hiv, Bool.not_true]

/-- CBCDEC by what it reads: the length check first, then `cbc_decrypt` on the operands (R111). -/
theorem cbcdecRun_of_holds :
    cbcdecRun P s = if x.length = 0 ∨ x.length % P.B ≠ 0 then .rejected .invalidInput
      else ⟨cbcDecrypt P x key iv, decCalls P x key, false⟩ := by
  rw [cbcdecRun, hx.inOperand hl, hkey.keyOperand hk, hvec.ivOperand hiv, hx.cbcWritten hl hkey hk hvec hiv, hl, Bool.not_true]

end

/-- Settles O26. -/
theorem cbcencCompletes : Obligations.CbcencCompletes := by
  intro s p key iv hp hl hkey hk hvec hiv
  obtain ⟨t, hexec, hcomp, hdraw⟩ :=
    exec_completes_of_runOf (i := .cbcenc) (cbcencRun_of_holds hp hl hkey hk hvec hiv)
  exact ⟨t, hexec, by rw [hcomp.outlen, outputOf, cbcEncrypt_length, hl], hcomp, hdraw⟩

/-- Settles O27. -/
theorem cbcdecCompletes : Obligations.CbcdecCompletes := by
  intro s c key iv hc hl hkey hk hvec hiv h0 hm
  have hal : ¬ (c.length = 0 ∨ c.length % s.params.B ≠ 0) := by omega
  have hrun := cbcdecRun_of_holds hc hl hkey hk hvec hiv
  rw [if_neg hal, decCalls_of_aligned key hal] at hrun
  exact exec_completes_of_runOf (i := .cbcdec) hrun

-- ---------------------------------------------------------------- the trace

/-- The code names the result's failure (spec/60_exceptions.md R130). -/
theorem eq_fail_of_errCode {r : Result} {f : Failure} (h : errCode r = codeOf f) : r = .fail f := by
  cases r with
  | ok v => exact absurd h.symm (codeOf_ne_zero f)
  | fail g => rw [codeOf_injective h]

/-- Settles O32: the trace grows by the records of the command's run. -/
theorem traceTable : Obligations.TraceTable := by
  intro i s t hexec
  obtain rfl : s.complete (runOf s.params i s) = t := Host.Outcome.next.inj ((exec_eq_complete i s).symm.trans hexec)
  refine ⟨_, rfl, fun hi => runOf_calls_eq_nil _ s hi, ?enc, ?dec, fun c => mem_runOf_calls⟩
  case enc =>
    rintro rfl
    refine ⟨?_, State.complete_err .., rfl, fun c hc => (mem_encCalls (s.ivOperand_length _) hc).1⟩
    rw [runOf, cbcencRun, encCalls_length, State.inOperand_length]
  case dec =>
    rintro rfl
    rw [State.complete_err, runOf, cbcdecRun_calls]
    by_cases hc : s.inlen = 0 ∨ s.inlen % s.params.B ≠ 0
    · rw [decCalls_of_misaligned _ (by rwa [State.inOperand_length]), cbcdecRun, if_pos hc]
      exact ⟨fun _ => rfl, fun herr => absurd rfl herr⟩
    · rw [decCalls_of_aligned _ (by rwa [State.inOperand_length]), State.inOperand_length, cbcdecRun, if_neg hc]
      refine ⟨fun herr => ?_, fun _ => ⟨by simp, fun j hj => ?_⟩⟩
      · have hne := cbcDecrypt_ne_invalidInput (c := s.inOperand) (key := s.keyOperand s.params)
          (s.ivOperand_length s.params) (by rw [State.inOperand_length]; omega) (by rw [State.inOperand_length]; omega)
        exact absurd (eq_fail_of_errCode herr) hne
      · rw [List.getElem?_map, blocks_getElem? hj, Option.map_some]

-- ---------------------------------------------------------------- what a command's result depends on

/-- Two completions of one run show the same result and make the same invocations, whatever the states are. -/
theorem exec_agree {i : Instr} {s s' t t' : State} (h : exec i s = .next t) (h' : exec i s' = .next t')
    (hrun : runOf s.params i s = runOf s'.params i s') :
    t.out = t'.out ∧ t.status = t'.status ∧ t.trace.drop s.trace.length = t'.trace.drop s'.trace.length := by
  rw [exec_eq_complete] at h h'
  obtain rfl := Host.Outcome.next.inj h
  obtain rfl := Host.Outcome.next.inj h'
  simp [hrun]

/-- Settles O33: the run of each command is a function of the operands it reads. -/
theorem resultDependsOnOperandsOnly : Obligations.ResultDependsOnOperandsOnly := by
  intro s s' t t' x y key iv hx hx' hl hl'
  refine ⟨fun i hi hP h h' => ?codec, fun hy hy' hm hm' h h' => ?xor, fun i hi hP hk hiv hkey hkey' hvec hvec' h h' => ?cbc⟩
  case codec =>
    have hrun : runOf s.params i s = runOf s'.params i s' := by
      rw [hP]
      rcases hi with rfl | rfl
      · rw [runOf, runOf, padRun, padRun, hx.inOperand hl, hx'.inOperand hl', hx.inWritten hl, hx'.inWritten hl', hl, hl']
      · rw [runOf, runOf, unpadRun, unpadRun, hx.inOperand hl, hx'.inOperand hl', hx.inWritten hl, hx'.inWritten hl', hl, hl']
    obtain ⟨hout, hst, -⟩ := exec_agree h h' hrun
    exact ⟨hout, hst⟩
  case xor =>
    have hrun : xorRun s = xorRun s' := by
      rw [xorRun, xorRun, State.xorWritten, State.xorWritten, hx.inOperand hl, hx'.inOperand hl', hy.auxOperand hm,
        hy'.auxOperand hm', hl, hl', hm, hm', hx.isWritten, hx'.isWritten, hy.isWritten, hy'.isWritten]
    obtain ⟨hout, hst, -⟩ := exec_agree h h' hrun
    exact ⟨hout, hst⟩
  case cbc =>
    refine exec_agree h h' ?_
    rw [hP]
    rcases hi with rfl | rfl
    · rw [runOf, runOf, cbcencRun_of_holds hx hl hkey hk hvec hiv, cbcencRun_of_holds hx' hl' hkey' hk hvec' hiv]
    · rw [runOf, runOf, cbcdecRun_of_holds hx hl hkey hk hvec hiv, cbcdecRun_of_holds hx' hl' hkey' hk hvec' hiv]

end Sys2Proof.Machine
end

section
/-! SUPPORT. What each command fails with, and when (spec/60_exceptions.md R130 to R138): the length check of a command answers what
its pure function would, so one table of failures holds for the functions and for the commands. -/

namespace Sys2Proof.Machine

-- ---------------------------------------------------------------- the length checks

section
variable {P : Params} {s : State}

theorem padRun_of_gt (h : P.B < s.inlen) : padRun P s = .rejected .invalidInput := if_pos h

theorem unpadRun_of_misaligned (h : s.inlen = 0 ∨ s.inlen % P.B ≠ 0) : unpadRun P s = .rejected .invalidInput := if_pos h

theorem xorRun_of_length_ne (h : s.inlen ≠ s.auxlen) : xorRun s = .rejected .lengthMismatch := if_pos h

theorem cbcdecRun_of_misaligned (h : s.inlen = 0 ∨ s.inlen % P.B ≠ 0) : cbcdecRun P s = .rejected .invalidInput := if_pos h

end

/-- Settles O28. -/
theorem lengthChecksFailFast : Obligations.LengthChecksFailFast := fun _ =>
  ⟨fun h => exec_completes_of_runOf (i := .pad) (padRun_of_gt h),
    fun h => exec_completes_of_runOf (i := .unpad) (unpadRun_of_misaligned h),
    fun h => exec_completes_of_runOf (i := .xor) (xorRun_of_length_ne h),
    fun h => exec_completes_of_runOf (i := .cbcdec) (cbcdecRun_of_misaligned h)⟩

-- ---------------------------------------------------------------- a command answers what its function answers

section
variable (P : Params) (s : State)

/-- The length check, made before any byte is read, answers what `pad` would (R132). -/
theorem padRun_result : (padRun P s).result = pad P s.inOperand := by
  by_cases h : P.B < s.inlen
  · rw [padRun_of_gt h, pad_of_gt (by rwa [State.inOperand_length])]; rfl
  · rw [padRun, if_neg h]

theorem unpadRun_result : (unpadRun P s).result = unpad P s.inOperand := by
  by_cases h : s.inlen = 0 ∨ s.inlen % P.B ≠ 0
  · rw [unpadRun_of_misaligned h, unpad_of_misaligned (by rwa [State.inOperand_length])]; rfl
  · rw [unpadRun, if_neg h]

theorem xorRun_result : (xorRun s).result = xorSeq s.inOperand s.auxOperand := by
  by_cases h : s.inlen ≠ s.auxlen
  · rw [xorRun_of_length_ne h, xorSeq_of_length_ne (by rwa [State.inOperand_length, State.auxOperand_length])]; rfl
  · rw [xorRun, if_neg h]

theorem cbcdecRun_result :
    (cbcdecRun P s).result = cbcDecrypt P s.inOperand (s.keyOperand P) (s.ivOperand P) := by
  by_cases h : s.inlen = 0 ∨ s.inlen % P.B ≠ 0
  · rw [cbcdecRun_of_misaligned h, cbcDecrypt_of_misaligned _ _ (by rwa [State.inOperand_length])]; rfl
  · rw [cbcdecRun, if_neg h]

end

-- ---------------------------------------------------------------- when the functions fail

theorem xorSeq_eq_fail_iff {a b : Bytes} {f : Failure} :
    xorSeq a b = .fail f ↔ f = .lengthMismatch ∧ a.length ≠ b.length := by
  by_cases h : a.length = b.length
  · simp [xorSeq_of_length_eq h, h]
  · simp [xorSeq_of_length_ne h, h, eq_comm]

theorem unpad_eq_fail_iff {P : Params} {y : Bytes} {f : Failure} :
    unpad P y = .fail f ↔ (f = .invalidInput ∧ (y.length = 0 ∨ y.length % P.B ≠ 0)) ∨
      (f = .invalidPadding ∧ 0 < y.length ∧ y.length % P.B = 0 ∧ ¬ ValidTail P y) := by
  cases f with
  | invalidInput => simp [unpad_eq_invalidInput_iff]
  | invalidPadding => simp [unpad_eq_invalidPadding_iff]
  | lengthMismatch =>
    have hne : unpad P y ≠ .fail .lengthMismatch := by
      by_cases hmis : y.length = 0 ∨ y.length % P.B ≠ 0
      · simp [unpad_of_misaligned hmis]
      · rcases unpad_cases (P := P) (y := y) (by omega) (by omega) with ⟨x, n, -, -, -, h⟩ | h <;> simp [h]
    simp [hne]

/-- The failures of `cbc_decrypt`: the length's, or the codec's on the last recovered block (spec/42_cbc.md R104, R105). -/
theorem cbcDecrypt_eq_fail_iff {P : Params} {c key iv : Bytes} (hiv : iv.length = P.B) {f : Failure} :
    cbcDecrypt P c key iv = .fail f ↔ (f = .invalidInput ∧ (c.length = 0 ∨ c.length % P.B ≠ 0)) ∨
      (f = .invalidPadding ∧ 0 < c.length ∧ c.length % P.B = 0 ∧
        ∃ last, (recovered P c key iv).getLast? = some last ∧ ¬ ValidTail P last) := by
  by_cases hmis : c.length = 0 ∨ c.length % P.B ≠ 0
  · have hal : ¬ (0 < c.length ∧ c.length % P.B = 0) := by omega
    rw [cbcDecrypt_of_misaligned key iv hmis]
    simp only [Result.fail.injEq]
    tauto
  · obtain ⟨h0, hm⟩ : 0 < c.length ∧ c.length % P.B = 0 := by omega
    obtain ⟨R, last, hR⟩ := exists_recovered_eq_concat key iv h0 hm
    have hlast : last.length = P.B := length_of_mem_recovered hiv (hR ▸ List.mem_concat_self)
    have hB : 0 < P.B := P.B_pos
    have hcodec : cbcDecrypt P c key iv = .fail f ↔ unpad P last = .fail f := by
      cases hu : unpad P last with
      | ok v => simp [cbcDecrypt_of_unpad_ok h0 hm hR hu]
      | fail g => rw [cbcDecrypt_of_unpad_fail h0 hm hR hu]
    rw [hcodec, unpad_eq_fail_iff, hR, List.getLast?_concat, hlast, Nat.mod_self]
    simp only [h0, h0.ne', hm, hB, hB.ne', ne_eq, not_true_eq_false, or_self, and_false, false_or, true_and,
      Option.some.injEq, exists_eq_left']

-- ---------------------------------------------------------------- the table of failures

/-- The table of spec/60_exceptions.md R130: when the command `i` on the operands of `s` fails with `f`. -/
def FailsWith (P : Params) (i : Instr) (s : State) : Failure → Prop
  | .lengthMismatch => i = .xor ∧ s.inlen ≠ s.auxlen
  | .invalidInput => (i = .pad ∧ P.B < s.inlen) ∨ ((i = .unpad ∨ i = .cbcdec) ∧ (s.inlen = 0 ∨ s.inlen % P.B ≠ 0))
  | .invalidPadding => 0 < s.inlen ∧ s.inlen % P.B = 0 ∧
      ((i = .unpad ∧ ¬ ValidTail P s.inOperand) ∨
       (i = .cbcdec ∧ ∃ last, (recovered P s.inOperand (s.keyOperand P) (s.ivOperand P)).getLast? = some last ∧
          ¬ ValidTail P last))

/-- A command fails exactly as the table says. -/
theorem runOf_result_eq_fail_iff {P : Params} {i : Instr} {s : State} {f : Failure} :
    (runOf P i s).result = .fail f ↔ FailsWith P i s f := by
  cases i with
  | pad => rw [runOf, padRun_result, pad_eq_fail_iff, State.inOperand_length]; cases f <;> simp [FailsWith]
  | unpad => rw [runOf, unpadRun_result, unpad_eq_fail_iff, State.inOperand_length]; cases f <;> simp [FailsWith]
  | xor =>
    rw [runOf, xorRun_result, xorSeq_eq_fail_iff, State.inOperand_length, State.auxOperand_length]
    cases f <;> simp [FailsWith]
  | cbcenc => rw [runOf, cbcencRun]; cases f <;> simp [FailsWith]
  | cbcdec =>
    rw [runOf, cbcdecRun_result, cbcDecrypt_eq_fail_iff (s.ivOperand_length P), State.inOperand_length]
    cases f <;> simp [FailsWith]

/-- Of the failures only InvalidPadding is found on an operand; the others are the length check's (R132, R133). -/
theorem runOf_eq_rejected {P : Params} {i : Instr} {s : State} {f : Failure} (h : (runOf P i s).result = .fail f)
    (hf : f ≠ .invalidPadding) : runOf P i s = .rejected f := by
  have htable := runOf_result_eq_fail_iff.1 h
  cases f with
  | lengthMismatch =>
    obtain ⟨rfl, hne⟩ := htable
    exact xorRun_of_length_ne hne
  | invalidInput =>
    rcases htable with ⟨rfl, hgt⟩ | ⟨rfl | rfl, hmis⟩
    · exact padRun_of_gt hgt
    · exact unpadRun_of_misaligned hmis
    · exact cbcdecRun_of_misaligned hmis
  | invalidPadding => exact absurd rfl hf

-- ---------------------------------------------------------------- what a failure leaves

/-- The code shown names the result's failure (R130). -/
theorem errCode_eq_codeOf_iff {r : Result} {f : Failure} : errCode r = codeOf f ↔ r = .fail f :=
  ⟨eq_fail_of_errCode, fun h => h ▸ errCode_fail f⟩

theorem exists_fail_of_errCode_ne_zero {r : Result} (h : errCode r ≠ 0#2) : ∃ f, r = .fail f := by
  cases r with
  | ok v => exact absurd (errCode_ok v) h
  | fail f => exact ⟨f, rfl⟩

/-- What the ENGINE leaves of a command is the completion of its run (spec/10_state.md R30). -/
theorem eq_complete_of_exec {i : Instr} {s t : State} (h : exec i s = .next t) : t = s.complete (runOf s.params i s) :=
  Host.Outcome.next.inj (h.symm.trans (exec_eq_complete i s))

/-- ERR shows the code of a failure exactly when the table has it. -/
theorem err_eq_codeOf_iff {i : Instr} {s t : State} (h : exec i s = .next t) (f : Failure) :
    t.err = codeOf f ↔ FailsWith s.params i s f := by
  rw [eq_complete_of_exec h, State.complete_err, errCode_eq_codeOf_iff, runOf_result_eq_fail_iff]

/-- Settles O30: each code is a row of the table. -/
theorem failureCodeTable : Obligations.FailureCodeTable := fun _ _ _ h =>
  ⟨err_eq_codeOf_iff h .lengthMismatch, err_eq_codeOf_iff h .invalidInput, err_eq_codeOf_iff h .invalidPadding⟩

/-- Completion with a failure, whatever has been invoked and drawn before it (R134, R137). -/
theorem State.complete_of_fail (s : State) {r : Run} {f : Failure} (h : r.result = .fail f) :
    s.complete r = { s with out := [], status := statusWord false true (codeOf f), chain := none, pend := none,
                            trace := (s.complete r).trace, draws := (s.complete r).draws,
                            unspecified := (s.complete r).unspecified } := by
  simp only [State.complete, h, outputOf, statusDone, errCode_fail]

/-- A rejected command invokes nothing and draws no free value (R132, R138). -/
theorem State.complete_rejected (s : State) (f : Failure) :
    (s.complete (.rejected f)).trace = s.trace ∧ (s.complete (.rejected f)).draws = s.draws ∧
      (s.complete (.rejected f)).unspecified = s.unspecified :=
  ⟨List.append_nil _, s.noDraw_complete rfl⟩

/-- Settles O31. -/
theorem failureLeavesOnlyItsCode : Obligations.FailureLeavesOnlyItsCode := by
  intro i s t hexec herr
  obtain rfl := eq_complete_of_exec hexec
  rw [State.complete_err] at herr ⊢
  obtain ⟨f, hf⟩ := exists_fail_of_errCode_ne_zero herr
  refine ⟨f, errCode_eq_codeOf_iff.2 hf, s.complete_of_fail hf, fun hne => ?_⟩
  rw [runOf_eq_rejected hf hne]
  exact s.complete_rejected f

end Sys2Proof.Machine
end

section
/-! SUPPORT. A result stays until the next command (spec/60_exceptions.md R139), and the product of instances (R144). -/

namespace Sys2Proof.Machine

-- ---------------------------------------------------------------- the result

/-- `t` shows the result `s` shows: STATUS, OUT, PEND, CHAIN and the trace are the same. -/
def State.SameResult (s t : State) : Prop :=
  t.status = s.status ∧ t.out = s.out ∧ t.pend = s.pend ∧ t.chain = s.chain ∧ t.trace = s.trace

/-- No access but a CMD write touches the result (spec/20_memory.md R43 to R46). -/
theorem State.doAccess_sameResult (s : State) (a : Access) :
    (∃ v, a = .wr .cmd v) ∨ s.SameResult (s.doAccess a) := by
  cases a with
  | rd l =>
    rw [State.doAccess]
    rcases s.doRead_cases l with ⟨v, -, h⟩ | ⟨v, -, h⟩ <;> exact .inr (by simp [State.SameResult, h])
  | wr l v =>
    rw [State.doAccess]
    rcases s.doWrite_cases l v with ⟨rfl, -⟩ | ⟨-, h⟩ | ⟨-, h⟩ | ⟨-, -, h⟩ | ⟨-, -, -, -, h⟩
    · exact .inl ⟨v, rfl⟩
    all_goals exact .inr (by simp [State.SameResult, h])

/-- Settles O55: with BUSY = 0 no completion is due, and what is left but RESET is an idle step or an access. -/
theorem resultStaysUntilNextCommand : Obligations.ResultStaysUntilNextCommand := by
  intro s t hidle hstep
  rcases step_next hstep with ⟨-, rfl, -⟩ | ⟨hbusy, -⟩ | ⟨es, he, -⟩ | ⟨a, es, he, -, -, rfl⟩
  · exact .inr (.inr ⟨rfl, rfl, rfl, rfl, rfl⟩)
  · simp [hidle] at hbusy
  · exact .inl (by simp [he])
  · rcases (s.withEvents es).doAccess_sameResult a with ⟨v, rfl⟩ | hsame
    · exact .inr (.inl ⟨v, by simp [he]⟩)
    · exact .inr (.inr hsame)

-- ---------------------------------------------------------------- the product of instances

/-- Everything a step of instance `i` can be: none where `i` names no instance, else that instance's own. -/
theorem stepInstance_next {ss ts : List State} {i : Nat} (h : stepInstance ss i = .next ts) :
    (ss[i]? = none ∧ ts = ss) ∨ ∃ s t, ss[i]? = some s ∧ step s = .next t ∧ ts = ss.set i t := by
  rw [stepInstance] at h
  split at h
  case h_1 hi => exact .inl ⟨hi, (Host.Outcome.next.inj h).symm⟩
  case h_2 s hi =>
    split at h
    case h_1 t ht => exact .inr ⟨s, t, hi, ht, (Host.Outcome.next.inj h).symm⟩
    case h_2 => cases h
    case h_3 => cases h

/-- Putting an instance in the place of another of the same copy changes no copy. -/
theorem map_copy_set {ss : List State} {i : Nat} {s t : State} (hi : ss[i]? = some s) (hc : t.copy = s.copy) :
    (ss.set i t).map State.copy = ss.map State.copy := by
  obtain ⟨hlt, rfl⟩ := List.getElem?_eq_some_iff.1 hi
  rw [List.map_set, hc, ← List.getElem_map State.copy (h := by simpa using hlt), List.set_getElem_self]

/-- Settles O57: the step puts the instance's own next state in its place. -/
theorem instancesShareNothing : Obligations.InstancesShareNothing := by
  intro ss ts i h
  rcases stepInstance_next h with ⟨hi, rfl⟩ | ⟨s, t, hi, hstep, rfl⟩
  · exact ⟨rfl, fun _ _ => rfl, rfl, fun s hs => by simp [hi] at hs⟩
  · refine ⟨List.length_set, fun j hj => List.getElem?_set_ne hj.symm, map_copy_set hi (step_copy hstep), fun s' hs' => ?_⟩
    obtain rfl := Option.some.inj (hi.symm.trans hs')
    have hlt : i < ss.length := (List.getElem?_eq_some_iff.1 hi).1
    exact ⟨t, hstep, List.getElem?_set_self hlt⟩

theorem map_copy_instancesAtReset (n : Nat) : (instancesAtReset n).map State.copy = List.range n := by
  simp [instancesAtReset, Function.comp_def]

theorem instancesAtReset_getElem? {n c : Nat} (h : c < n) :
    (instancesAtReset n)[c]? = some { State.reset with copy := c } := by
  simp [instancesAtReset, h]

/-- Settles O58: the copies after reset are `0 .. n-1`, and no step changes any. -/
theorem instancesStayDistinctCopies : Obligations.InstancesStayDistinctCopies := by
  refine ⟨fun n => ⟨by simp [instancesAtReset], ?distinct, fun c hc => ?member⟩, fun ss ts i hd h => ?step⟩
  case distinct =>
    rw [distinctCopies, map_copy_instancesAtReset]
    exact List.nodup_range
  case member => exact ⟨_, instancesAtReset_getElem? hc, rfl, rfl⟩
  case step =>
    obtain ⟨-, -, hcopy, -⟩ := instancesShareNothing ss ts i h
    rwa [distinctCopies, hcopy]

end Sys2Proof.Machine
end

section
/-! SUPPORT. RESET and the hazards (spec/70_reset_and_hazards.md): what RESET leaves of a command in progress (R150, R153), reads
and commands over unwritten bytes (R151, R152), and the completion of a busy instance (R164). -/

namespace Sys2Proof.Machine

-- ---------------------------------------------------------------- RESET

theorem runOf_withEvents (P : Params) (i : Instr) (s : State) (es : List Event) : runOf P i (s.withEvents es) = runOf P i s := by
  cases i <;> rfl

/-- RESET does not look at the inputs left, nor do the runs of the commands it may abandon. -/
theorem State.doReset_withEvents (P : Params) (s : State) (es : List Event) :
    (s.withEvents es).doReset P = (s.doReset P).withEvents es := by
  have hcalls : (s.withEvents es).pendingCalls P = s.pendingCalls P := by
    simp only [State.pendingCalls, State.withEvents_pend, runOf_withEvents]
  simp only [State.doReset, hcalls]
  rfl

/-- RESET may come in any state (R150). -/
theorem step_reset {s : State} {es : List Event} (he : s.events = .reset :: es) :
    step s = .next ((s.doReset s.params).withEvents es) := by
  rw [← State.doReset_withEvents]
  simp [step, he]

theorem State.pendingCalls_of_pend {P : Params} {s : State} {w : BitVec 8} (hp : s.pend = some w) :
    s.pendingCalls P = (wordRun P w s).calls := by
  simp only [State.pendingCalls, wordRun, hp]
  cases decode w <;> rfl

/-- The ENGINE's completion makes every invocation of the command in progress (spec/42_cbc.md R109). -/
theorem engineStep_trace {s u : State} (h : engineStep s = .next u) : u.trace = s.trace ++ s.pendingCalls s.params := by
  obtain ⟨w, hp, rfl⟩ := engineStep_next h
  rw [State.pendingCalls_of_pend hp, State.complete_trace]

theorem State.doReset_trace_of_idle {P : Params} {s : State} (hb : s.busy = false) : (s.doReset P).trace = s.trace := by
  simp [hb]

/-- Of the invocations the command in progress would have made, RESET finds a first part made (R153). -/
theorem State.doReset_trace_of_busy {P : Params} {s : State} (hb : s.busy = true) :
    ∃ made, made <+: s.pendingCalls P ∧ (s.doReset P).trace = s.trace ++ made :=
  ⟨_, List.take_prefix _ _, by rw [State.doReset_trace, if_pos hb]⟩

/-- Settles O56. -/
theorem resetEvent : Obligations.ResetEvent := by
  intro s es he
  refine ⟨_, step_reset he, rfl, ?grows, State.doReset_trace_of_idle, fun hb u hu => ?part⟩
  case grows =>
    rw [State.withEvents_trace]
    cases hb : s.busy with
    | false => rw [State.doReset_trace_of_idle hb]
    | true =>
      obtain ⟨made, -, htrace⟩ := State.doReset_trace_of_busy (P := s.params) hb
      exact ⟨made, htrace.symm⟩
  case part =>
    obtain ⟨made, hmade, htrace⟩ := State.doReset_trace_of_busy (P := s.params) hb
    rw [State.withEvents_trace, htrace, engineStep_trace hu]
    exact (List.prefix_append_right_inj _).2 hmade

-- ---------------------------------------------------------------- a busy instance

/-- Settles O53: the ENGINE's is the only step left, and its word is latched (log entry 6). -/
theorem busyInstanceCompletes : Obligations.BusyInstanceCompletes := by
  intro s h hb hevents
  obtain ⟨t, hstep, hbusy, hdone⟩ : ∃ t, step s = .next t ∧ t.busy = false ∧ t.isDone = true := by
    rcases hevents with he | ⟨es, he⟩
    · obtain ⟨t, _, _, ht, hcomp⟩ := h.engineStep_completes hb
      exact ⟨t, (step_nil_of_busy he hb).trans ht, hcomp.busy, hcomp.done⟩
    · obtain ⟨t, _, _, ht, hcomp⟩ := (h.withEvents es).engineStep_completes hb
      exact ⟨t, (step_engine_of_busy he hb).trans ht, hcomp.busy, hcomp.done⟩
  exact ⟨t, hstep, hbusy, hdone, stepKeepsInvariants s t h hstep⟩

-- ---------------------------------------------------------------- unwritten bytes

/-- A read of an unwritten byte replies with a free value, a byte's (R151; log entry 3). -/
theorem State.doRead_of_unwritten {s : State} {l : Loc} (h : s.readLoc l = none) :
    ∃ v, v < 256 ∧ s.doRead l = (s.reply l v).spend :=
  ⟨_, (Config.unwritten s.copy s.draws l.space l.index).isLt, by simp only [State.doRead, h]⟩

/-- Settles O37. -/
theorem readOfUnwrittenByteCompletes : Obligations.ReadOfUnwrittenByteCompletes := by
  intro s l es hw he hb hr ho hnone
  have hread : (s.withEvents es).readLoc l = none := by
    rw [State.readLoc_withEvents, s.readLoc_of_byte hr ho, hnone, Option.map_none]
  obtain ⟨v, hv, hd⟩ := State.doRead_of_unwritten hread
  refine ⟨v, hv, ?_⟩
  rw [step_access_of_idle he hb hw, State.doAccess, hd]
  rfl

/-- A run over unwritten bytes completes, marks the state and spends one free value (R152; log entries 3, 4, 5). -/
theorem exec_marks_of_runOf {i : Instr} {s : State} {r : Result} {calls : List PrimCall} {p : BitVec 2 → Prop}
    (h : runOf s.params i s = ⟨r, calls, true⟩) (hp : p (errCode r)) :
    ∃ t, exec i s = .next t ∧ t.unspecified = true ∧ t.draws = s.draws + 1 ∧ p t.err ∧ s.SameOperands t := by
  refine ⟨_, exec_eq_complete i s, ?_⟩
  rw [h, State.complete_err]
  exact ⟨Bool.or_true _, rfl, hp, (s.completedWith_complete _).operands⟩

section
variable {P : Params} {s : State}

theorem padRun_of_unwritten (h : s.inlen ≤ P.B) (hw : s.inWritten = false) : padRun P s = ⟨pad P s.inOperand, [], true⟩ := by
  rw [padRun, if_neg (Nat.not_lt.2 h), hw, Bool.not_false]

theorem unpadRun_of_unwritten (h0 : 0 < s.inlen) (hm : s.inlen % P.B = 0) (hw : s.inWritten = false) :
    unpadRun P s = ⟨unpad P s.inOperand, [], true⟩ := by
  rw [unpadRun, if_neg (by omega), hw, Bool.not_false]

theorem xorRun_of_unwritten (h : s.inlen = s.auxlen) (hw : s.xorWritten = false) :
    xorRun s = ⟨xorSeq s.inOperand s.auxOperand, [], true⟩ := by
  rw [xorRun, if_neg (not_not_intro h), hw, Bool.not_false]

theorem cbcencRun_of_unwritten (hw : s.cbcWritten P = false) :
    cbcencRun P s = ⟨.ok (cbcEncrypt P s.inOperand (s.keyOperand P) (s.ivOperand P)),
      encCalls P s.inOperand (s.keyOperand P) (s.ivOperand P), true⟩ := by
  rw [cbcencRun, hw, Bool.not_false]

theorem cbcdecRun_of_unwritten (h0 : 0 < s.inlen) (hm : s.inlen % P.B = 0) (hw : s.cbcWritten P = false) :
    cbcdecRun P s = ⟨cbcDecrypt P s.inOperand (s.keyOperand P) (s.ivOperand P), decCalls P s.inOperand (s.keyOperand P), true⟩ := by
  rw [cbcdecRun, if_neg (by omega), hw, Bool.not_false]

end

-- ---------------------------------------------------------------- the code where the length check passes

theorem errCode_pad_of_le {P : Params} {x : Bytes} (h : x.length ≤ P.B) : errCode (pad P x) = 0#2 := by
  obtain ⟨n, -, -, -, hpad⟩ := pad_eq_append_rep h
  rw [hpad, errCode_ok]

/-- `unpad` on whole blocks answers, or finds the tail invalid (spec/40_padding.md R82). -/
theorem errCode_unpad_of_aligned {P : Params} {y : Bytes} (h0 : 0 < y.length) (hm : y.length % P.B = 0) :
    errCode (unpad P y) = 0#2 ∨ errCode (unpad P y) = 3#2 := by
  rcases unpad_cases h0 hm with ⟨x, n, -, -, -, h⟩ | h
  · exact .inl (by rw [h, errCode_ok])
  · exact .inr (by rw [h]; rfl)

/-- So does `cbc_decrypt`, by the last recovered block (spec/42_cbc.md R105). -/
theorem errCode_cbcDecrypt_of_aligned {P : Params} {c key iv : Bytes} (hiv : iv.length = P.B) (h0 : 0 < c.length)
    (hm : c.length % P.B = 0) : errCode (cbcDecrypt P c key iv) = 0#2 ∨ errCode (cbcDecrypt P c key iv) = 3#2 := by
  rcases cbcDecrypt_cases (c := c) (key := key) hiv with ⟨hmis, -⟩ | ⟨-, -, h⟩ | ⟨-, -, R, x, n, -, -, -, h⟩
  · omega
  · exact .inr (by rw [h]; rfl)
  · exact .inl (by rw [h, errCode_ok])

/-- Settles O34: past its length check each command runs its function on the free values. -/
theorem unwrittenOperandsMarkTheRun : Obligations.UnwrittenOperandsMarkTheRun := by
  intro s
  refine ⟨fun hle hw => ?pad, fun h0 hm hw => ?unpad, fun hl hw => ?xor, fun hw => ?cbcenc, fun h0 hm hw => ?cbcdec⟩
  case pad =>
    exact exec_marks_of_runOf (i := .pad) (p := (· = 0#2)) (padRun_of_unwritten hle hw)
      (errCode_pad_of_le (by rwa [State.inOperand_length]))
  case unpad =>
    exact exec_marks_of_runOf (i := .unpad) (p := fun e => e = 0#2 ∨ e = 3#2) (unpadRun_of_unwritten h0 hm hw)
      (errCode_unpad_of_aligned (by rwa [State.inOperand_length]) (by rwa [State.inOperand_length]))
  case xor =>
    refine exec_marks_of_runOf (i := .xor) (p := (· = 0#2)) (xorRun_of_unwritten hl hw) ?_
    rw [xorSeq_of_length_eq (by rwa [State.inOperand_length, State.auxOperand_length]), errCode_ok]
  case cbcenc => exact exec_marks_of_runOf (i := .cbcenc) (p := (· = 0#2)) (cbcencRun_of_unwritten hw) rfl
  case cbcdec =>
    exact exec_marks_of_runOf (i := .cbcdec) (p := fun e => e = 0#2 ∨ e = 3#2) (cbcdecRun_of_unwritten h0 hm hw)
      (errCode_cbcDecrypt_of_aligned (s.ivOperand_length _) (by rwa [State.inOperand_length]) (by rwa [State.inOperand_length]))

end Sys2Proof.Machine
end
